-- ==== Sys2Proof/Word.lean ====
section
/-! DEFINITION. The machine's value types: a word (`Word32` of 00_scope.md R6), a byte of an I/O channel
(10_state.md R37), a register selector (30_encoding.md R86) and the register file (10_state.md R20). -/

namespace Sys2Proof

/-- `Word32`: every register, store word, handle, offset and program counter value (00_scope.md R6). -/
abbrev Word := BitVec 32

/-- One byte of the input or output channel, or of a boot image file (10_state.md R37; 20_memory.md R60). -/
abbrev Byte := BitVec 8

/-- A register selector: a 3-bit value, and every value names a register (30_encoding.md R86). -/
abbrev Reg := Fin 8

/-- The register file: eight independent words, none of them hard-wired (10_state.md R20). -/
abbrev RegFile := Vector Word 8

end Sys2Proof
end

