-- ==== Sys2Proof/Syntax.lean ====
section
/-! DEFINITION. The instructions: one constructor for each row of spec/opcode_table.json (30_encoding.md R88).
Bits an instruction ignores (R87) are no part of it. -/

namespace Sys2Proof

/-- The fourteen assigned opcodes of the opcode map (30_encoding.md R88), in the map's order. -/
inductive Op where
  | cmov | sload | sstore | add | mul | div | nand | halt | map | unmap | out | inp | loadp | lv
deriving DecidableEq, Repr

/-- An instruction with its operands. Selectors are named as in 00_scope.md R10. -/
inductive Instr where
  /-- CMOV rA, rB, rC (R120). -/
  | cmov (a b c : Reg)
  /-- SLOAD rA, rB, rC (R121). -/
  | sload (a b c : Reg)
  /-- SSTORE rA, rB, rC (R122). -/
  | sstore (a b c : Reg)
  /-- ADD rA, rB, rC (R130). -/
  | add (a b c : Reg)
  /-- MUL rA, rB, rC (R131). -/
  | mul (a b c : Reg)
  /-- DIV rA, rB, rC (R132). -/
  | div (a b c : Reg)
  /-- NAND rA, rB, rC (R133). -/
  | nand (a b c : Reg)
  /-- HALT (R140). -/
  | halt
  /-- MAP rB, rC (R141). -/
  | map (b c : Reg)
  /-- UNMAP rC (R142). -/
  | unmap (c : Reg)
  /-- OUT rC (R150). -/
  | out (c : Reg)
  /-- IN rC (R151). -/
  | inp (c : Reg)
  /-- LOADP rB, rC (R160). -/
  | loadp (b c : Reg)
  /-- LV rA, imm with `0 ≤ imm ≤ 0x01FFFFFF` (R161, R90); WellFormed checks the range. -/
  | lv (a : Reg) (imm : Nat)
  /-- A word of opcode 14 with its other 28 bits (30_encoding.md R89): the table's first row "(invalid)". -/
  | invalid14 (payload : BitVec 28)
  /-- A word of opcode 15 with its other 28 bits (30_encoding.md R89): the table's second row "(invalid)". -/
  | invalid15 (payload : BitVec 28)
deriving DecidableEq, Repr

end Sys2Proof
end

