-- ==== Sys2Proof/WellFormed.lean ====
section
/-! DEFINITION. Which terms of Instr are instructions. A selector cannot be out of range (30_encoding.md R86), so
the one check is the range of load-value's immediate (R85, R90). -/

namespace Sys2Proof

/-- One past the largest 25-bit immediate (30_encoding.md R85). -/
abbrev immBound : Nat := 33554432

/-- The check: the instruction's operands are in the ranges of 30_encoding.md R90 and R92. -/
def Instr.wellFormed : Instr → Bool
  | .lv _ imm => decide (imm < immBound)
  | .cmov _ _ _ => true
  | .sload _ _ _ => true
  | .sstore _ _ _ => true
  | .add _ _ _ => true
  | .mul _ _ _ => true
  | .div _ _ _ => true
  | .nand _ _ _ => true
  | .halt => true
  | .map _ _ => true
  | .unmap _ => true
  | .out _ => true
  | .inp _ => true
  | .loadp _ _ => true
  | .invalid14 _ => true
  | .invalid15 _ => true

/-- The instruction passes the check. -/
abbrev Instr.WellFormed (i : Instr) : Prop := i.wellFormed = true

end Sys2Proof
end

