-- ==== Sys2Proof/Decode.lean ====
section
/-! DEFINITION. From a 32-bit word to an instruction and back (30_encoding.md). Every instruction is one word (R80),
so the decoder is a total function of a word: opcodes 14 and 15 are decoded to their own constructors, whose
meaning raises INVALID_OPCODE (R89). The opcode numerals stand in one table, `Op.code` (D7). -/

namespace Sys2Proof

/-- THE OPCODE MAP (30_encoding.md R84, R88). The numerals are the spec's decision D7 (log entry 4). -/
def Op.code : Op → Nat
  | .cmov => 0
  | .sload => 1
  | .sstore => 2
  | .add => 3
  | .mul => 4
  | .div => 5
  | .nand => 6
  | .halt => 7
  | .map => 8
  | .unmap => 9
  | .out => 10
  | .inp => 11
  | .loadp => 12
  | .lv => 13

/-- All assigned opcodes, for looking a numeral up in the one table. -/
def Op.all : List Op :=
  [.cmov, .sload, .sstore, .add, .mul, .div, .nand, .halt, .map, .unmap, .out, .inp, .loadp, .lv]

/-- The opcode of a numeral, none where the map has no entry (R89). -/
def Op.ofCode (n : Nat) : Option Op := Op.all.find? fun o => o.code == n

/-- `w[hi:lo]` as a natural (00_scope.md R7). -/
def bits (w : Word) (hi lo : Nat) : Nat := w.toNat / 2 ^ lo % 2 ^ (hi - lo + 1)

/-- The 3-bit register selector whose lowest bit is `lo` (30_encoding.md R86). -/
def regSel (w : Word) (lo : Nat) : Reg := ⟨w.toNat / 2 ^ lo % 8, Nat.mod_lt _ (by decide)⟩

/-- Selector A of the standard format, bits 8:6 (R81). -/
def selA (w : Word) : Reg := regSel w 6

/-- Selector B of the standard format, bits 5:3 (R81). -/
def selB (w : Word) : Reg := regSel w 3

/-- Selector C of the standard format, bits 2:0 (R81). -/
def selC (w : Word) : Reg := regSel w 0

/-- Selector A of the immediate format, bits 27:25 (R82). -/
def selLv (w : Word) : Reg := regSel w 25

/-- The low 28 bits: all that an invalid word holds beside its opcode (R89). -/
def payload (w : Word) : BitVec 28 := BitVec.ofNat 28 (bits w 27 0)

/-- Decoding (40_execution_cycle.md R104): by the opcode nibble alone, no other bit is checked (R87). -/
def decode (w : Word) : Instr :=
  match Op.ofCode (bits w 31 28) with
  | some .cmov => .cmov (selA w) (selB w) (selC w)
  | some .sload => .sload (selA w) (selB w) (selC w)
  | some .sstore => .sstore (selA w) (selB w) (selC w)
  | some .add => .add (selA w) (selB w) (selC w)
  | some .mul => .mul (selA w) (selB w) (selC w)
  | some .div => .div (selA w) (selB w) (selC w)
  | some .nand => .nand (selA w) (selB w) (selC w)
  | some .halt => .halt
  | some .map => .map (selB w) (selC w)
  | some .unmap => .unmap (selC w)
  | some .out => .out (selC w)
  | some .inp => .inp (selC w)
  | some .loadp => .loadp (selB w) (selC w)
  | some .lv => .lv (selLv w) (bits w 24 0)
  | none => if bits w 31 28 = 14 then .invalid14 (payload w) else .invalid15 (payload w)

/-- The host's view of the decoder: the table gives every row 32 bits and the machine stores an instruction as one
word, so the word's bits are the table's bits. No instruction is longer than 32 bits. -/
def decodeTableWord (nbits w : Nat) : Option Instr :=
  if nbits ≤ 32 then some (decode (BitVec.ofNat 32 (w % 2 ^ nbits))) else none

/-- `enc_std` of 30_encoding.md R92, unused selectors 0. -/
def encStd (op : Op) (a b c : Nat) : Word :=
  BitVec.ofNat 32 (op.code * 2 ^ 28 + a * 2 ^ 6 + b * 2 ^ 3 + c)

/-- `enc_lv` of 30_encoding.md R92. -/
def encLv (a imm : Nat) : Word := BitVec.ofNat 32 (Op.lv.code * 2 ^ 28 + a * 2 ^ 25 + imm)

/-- A word of an opcode outside the map, from its numeral and its other 28 bits (R89). -/
def encInvalid (n : Nat) (p : BitVec 28) : Word := BitVec.ofNat 32 (n * 2 ^ 28 + p.toNat)

/-- The word of an instruction, unused fields assembled as 0 (R90, R92). -/
def encode : Instr → Word
  | .cmov a b c => encStd .cmov a b c
  | .sload a b c => encStd .sload a b c
  | .sstore a b c => encStd .sstore a b c
  | .add a b c => encStd .add a b c
  | .mul a b c => encStd .mul a b c
  | .div a b c => encStd .div a b c
  | .nand a b c => encStd .nand a b c
  | .halt => encStd .halt 0 0 0
  | .map b c => encStd .map 0 b c
  | .unmap c => encStd .unmap 0 0 c
  | .out c => encStd .out 0 0 c
  | .inp c => encStd .inp 0 0 c
  | .loadp b c => encStd .loadp 0 b c
  | .lv a imm => encLv a imm
  | .invalid14 p => encInvalid 14 p
  | .invalid15 p => encInvalid 15 p

/-- The bits of a word that its instruction's decoding reads: the others are the ignored bits of R87. -/
def usedMask : Instr → Word
  | .cmov _ _ _ => 0xF00001FF#32
  | .sload _ _ _ => 0xF00001FF#32
  | .sstore _ _ _ => 0xF00001FF#32
  | .add _ _ _ => 0xF00001FF#32
  | .mul _ _ _ => 0xF00001FF#32
  | .div _ _ _ => 0xF00001FF#32
  | .nand _ _ _ => 0xF00001FF#32
  | .halt => 0xF0000000#32
  | .map _ _ => 0xF000003F#32
  | .unmap _ => 0xF0000007#32
  | .out _ => 0xF0000007#32
  | .inp _ => 0xF0000007#32
  | .loadp _ _ => 0xF000003F#32
  | .lv _ _ => 0xFFFFFFFF#32
  | .invalid14 _ => 0xFFFFFFFF#32
  | .invalid15 _ => 0xFFFFFFFF#32

end Sys2Proof
end

