-- ==== Sys2Proof/Config.lean ====
section
/-! DEFINITION. The parameters of the block (00_scope.md R5). Those the spec gives a default for are a plain
record which State holds and no step changes (log entry 5); the exit status after a fault, which the spec
gives no value for, is a free value (log entry 6). -/

namespace Sys2Proof

/-- Parameters with a default in the spec (00_scope.md R5; 93_implementation_defined.md I1, I3, I4). -/
structure Config where
  /-- `MEM_CAPACITY`: the most live words; `none` is unbounded (20_memory.md R58). -/
  memCapacity : Option Nat
  /-- `MAX_SLOTS`: the most handle slots, live and reclaimed, handle 0 included (00_scope.md R5). -/
  maxSlots : Nat
  /-- `REG_RESET`: the registers' values after reset (10_state.md R22). -/
  regReset : RegFile
deriving DecidableEq, Repr

/-- The spec's defaults: unbounded capacity (D9), 2^32 - 1 slots (D8), registers 0 (D2). -/
def Config.default : Config :=
  { memCapacity := none, maxSlots := 4294967295, regReset := Vector.replicate 8 0 }

/-- The range 00_scope.md R5 allows for `MAX_SLOTS`: slot 0 exists, and every handle fits a word. -/
abbrev Config.wf (cfg : Config) : Prop := 1 ≤ cfg.maxSlots ∧ cfg.maxSlots ≤ 4294967295

/-- FREE VALUE (log entry 6). No proof can see what it is. -/
opaque Config.exitFaultSeed : Nat

/-- `EXIT_FAULT`, "any non-zero value" (10_state.md R40; D6). As the seed ranges over the naturals this ranges
over exactly the non-zero words; it is the same for every fault kind. -/
def Config.exitFault : Word := BitVec.ofNat 32 (Config.exitFaultSeed % 4294967295 + 1)

end Sys2Proof
end

