-- ==== Sys2Proof/Machine/State.lean ====
section
/-! DEFINITION. The state of the machine, as plain data: the tuple `(x, pc, state, store)` of 10_state.md, the
record of the two byte channels, and the parameters; the reasons a step can stop; and the state after reset
(70_reset_and_hazards.md R200). -/

namespace Sys2Proof.Machine

/-- The fault kinds of 60_exceptions.md R170. Taking one is a NEXT state whose run state is `FAULTED`. -/
inductive FaultKind where
  | invalidOpcode
  | divideByZero
  | segBadHandle
  | segBadOffset
  | mapZeroLength
  | handleExhausted
  | memoryExhausted
  | unmapInvalid
  | outputRange
  | loadpBadHandle
  | loadpBadTarget
deriving DecidableEq, Repr

/-- Why a run ended normally (10_state.md R26). -/
inductive HaltCause where
  | haltInstruction
  | endOfProgram
deriving DecidableEq, Repr

/-- The run state (10_state.md R26). -/
inductive RunState where
  | running
  | halted (cause : HaltCause)
  | faulted (kind : FaultKind) (fpc fword : Word)
deriving DecidableEq, Repr

/-- The words of a segment that are not 0, by offset: offsets strictly rising, no word 0 (log entry 1). -/
abbrev Cells := List (Nat × Word)

/-- A segment: its length in words, fixed at its creation (10_state.md R33), and its words. A word that is not
listed reads 0, the value every word has when the segment is created (20_memory.md R51). -/
structure Segment where
  len : Nat
  cells : Cells
deriving DecidableEq, Repr

/-- A slot of the segment store (10_state.md R30). -/
inductive Slot where
  | live (seg : Segment)
  | reclaimed
deriving DecidableEq, Repr

/-- The segment store `slot[0 .. hwm-1]` (10_state.md R30). The high-water mark is the number of slots, and the
reclaimed pool is the set of handles whose slot is reclaimed (R31); neither is stored twice. -/
structure Memory where
  slots : List Slot
deriving DecidableEq, Repr

/-- The host's answer to one input request (10_state.md R37). -/
inductive InputResponse where
  | byte (v : Byte)
  | endOfInput
deriving DecidableEq, Repr

/-- What the test before a fetch finds (40_execution_cycle.md R101, R102). -/
inductive FetchResult where
  /-- Segment 0 holds no word: the boot port has handed over no image, or an empty one (R204). -/
  | noProgram
  /-- `pc ≥ SegLen(0)`: the run ends normally (R101). -/
  | endOfProgram
  /-- The instruction word at `(0, pc)` (R102). -/
  | word (w : Word)
deriving DecidableEq, Repr

/-- The machine's state. -/
structure State where
  /-- The general registers `x[0] .. x[7]` (10_state.md R20). -/
  regs : RegFile
  /-- The program counter, a word offset into segment 0 (10_state.md R23). -/
  pc : Word
  /-- The run state (10_state.md R26). -/
  runState : RunState
  /-- The segment store (10_state.md R30). -/
  memory : Memory
  /-- MODEL'S OWN: the host's answers not consumed yet, oldest first (10_state.md R38; log entry 7). -/
  input : List InputResponse
  /-- MODEL'S OWN: the bytes delivered in this run, oldest first (10_state.md R39; log entry 8). -/
  output : List Byte
  /-- MODEL'S OWN: the parameters, which no step changes (00_scope.md R5; log entry 5). -/
  cfg : Config
deriving DecidableEq, Repr

/-- Why `step` answers a fault: no step exists from a state whose run has ended. These are NOT the fault kinds of
60_exceptions.md, which are taken as next states. -/
inductive Fault where
  /-- Raised by `step` in run state `HALTED`: "it takes no step and no state changes" (40_execution_cycle.md R100).
  Safe: the hardware does nothing there either (log entry 9). -/
  | runHalted
  /-- Raised by `step` in run state `FAULTED`: terminal until reset (R100, 60_exceptions.md R176; 93 I8 "stuck").
  Safe: the hardware does nothing there either (log entry 9). -/
  | runFaulted
deriving DecidableEq, Repr

/-- Why the machine refuses. -/
inductive Refusal where
  /-- Raised by an arm of `exec` for an instruction without a meaning; no arm is left so. Safe. -/
  | notModelled (mnemonic : String)
  /-- Raised by `step` when segment 0 holds no word, so that nothing has been booted: "the block does not start, no
  step is taken" (70_reset_and_hazards.md R204). Safe (log entry 10). -/
  | noProgram
  /-- Raised by the boot port for an image of no words (70_reset_and_hazards.md R204). Safe. -/
  | emptyImage
  /-- Raised by the boot port for an image longer than any segment can be (10_state.md R33). Safe (log entry 12). -/
  | imageTooLong
deriving DecidableEq, Repr

/-- The outcome of a step of this machine. -/
abbrev StepResult := Host.Outcome State Fault Refusal

/-- Every field as 70_reset_and_hazards.md R200 gives it, with `seg` as segment 0 and `cfg` as the parameters. -/
def State.resetWith (cfg : Config) (seg : Segment) : State :=
  { regs := cfg.regReset
    pc := 0#32
    runState := .running
    memory := { slots := [.live seg] }
    input := []
    output := []
    cfg := cfg }

/-- The machine right after reset, before the boot port has handed over an image: segment 0 holds no word yet
(log entry 10), and the parameters are the spec's defaults. -/
def State.reset : State := State.resetWith Config.default { len := 0, cells := [] }

end Sys2Proof.Machine
end

