-- ==== Sys2Proof/Machine/Operands.lean ====
section
/-! DEFINITION. Operands and operators: reading and writing a general register (10_state.md R20, R21) and the
other fields of the state, the arithmetic of 00_scope.md R8, and the widening of an immediate and of an input byte. The machine has no other
operand form: every operand but load-value's immediate is a register (30_encoding.md R85). -/

namespace Sys2Proof.Machine

/-- `x[i]` (00_scope.md R9). -/
def State.getReg (s : State) (r : Reg) : Word := s.regs[r]

/-- `x[i] <- v` (00_scope.md R9). -/
def State.setReg (s : State) (r : Reg) (v : Word) : State := { s with regs := s.regs.set r v }

/-- `pc <- t` (00_scope.md R9). -/
def State.setPc (s : State) (t : Word) : State := { s with pc := t }

/-- `state <- r` (00_scope.md R9). -/
def State.setRunState (s : State) (r : RunState) : State := { s with runState := r }

/-- The segment store replaced by the one a store operation gives. -/
def State.setMemory (s : State) (m : Memory) : State := { s with memory := m }

/-- The answers of the host that are left after an input request took one. -/
def State.setInput (s : State) (rest : List InputResponse) : State := { s with input := rest }

/-- `a +32 b = (a + b) mod 2^32` (00_scope.md R8). -/
def add32 (a b : Word) : Word := BitVec.ofNat 32 (a.toNat + b.toNat)

/-- `a *32 b = (a × b) mod 2^32` (00_scope.md R8). -/
def mul32 (a b : Word) : Word := BitVec.ofNat 32 (a.toNat * b.toNat)

/-- `a div b = floor(a / b)`; every use is guarded against `b = 0` (00_scope.md R8). -/
def div32 (a b : Word) : Word := BitVec.ofNat 32 (a.toNat / b.toNat)

/-- `~(a & b)` over 32 bits (00_scope.md R8). -/
def nand32 (a b : Word) : Word := ~~~(a &&& b)

/-- `zext_32(imm)` of a 25-bit immediate (30_encoding.md R85). -/
def zextImm (imm : Nat) : Word := (BitVec.ofNat 25 imm).setWidth 32

/-- What an input request's answer puts into the register (44_io.md R151). -/
def InputResponse.value : InputResponse → Word
  | .byte v => v.setWidth 32
  | .endOfInput => 0xFFFFFFFF#32

end Sys2Proof.Machine
end

