-- ==== Sys2Proof/Machine/Ops.lean ====
section
/-! DEFINITION. The shared operations: the five operations of the segment store (20_memory.md), the fetch and the
end-of-program test (40_execution_cycle.md R101 to R103), taking a fault (60_exceptions.md R175), and the output
channel (10_state.md R39). There is no return from a fault (R176): only reset leaves `FAULTED` (HostPort.lean). -/

namespace Sys2Proof.Machine

/-! ## The words of one segment -/

/-- The word at an offset; a word that is not listed reads 0 (20_memory.md R51). -/
def Cells.read : Cells → Nat → Word
  | [], _ => 0#32
  | (k, x) :: cs, o => if k = o then x else Cells.read cs o

/-- Replaces the word at an offset and keeps the canonical form: writing 0 removes the entry. -/
def Cells.write : Cells → Nat → Word → Cells
  | [], o, v => if v = 0#32 then [] else [(o, v)]
  | (k, x) :: cs, o, v =>
    if o < k then (if v = 0#32 then (k, x) :: cs else (o, v) :: (k, x) :: cs)
    else if o = k then (if v = 0#32 then cs else (o, v) :: cs)
    else (k, x) :: Cells.write cs o v

/-- The cells of a list of words that starts at offset `start`. -/
def Cells.ofWords (start : Nat) : List Word → Cells
  | [] => []
  | w :: ws => if w = 0#32 then Cells.ofWords (start + 1) ws else (start, w) :: Cells.ofWords (start + 1) ws

/-- The canonical form: offsets strictly rising and inside the segment, no word equal to what an unlisted one
reads as. -/
abbrev Cells.wf (len : Nat) (cs : Cells) : Prop :=
  cs.Pairwise (fun p q => p.1 < q.1) ∧ ∀ p ∈ cs, p.1 < len ∧ p.2 ≠ 0#32

/-- A zero-filled segment of `n` words (20_memory.md R50, R51). -/
def Segment.zeros (n : Nat) : Segment := { len := n, cells := [] }

/-- The segment of a sequence of words, `w_i` at offset `i` (70_reset_and_hazards.md R202). -/
def Segment.ofWords (ws : List Word) : Segment := { len := ws.length, cells := Cells.ofWords 0 ws }

/-- The word at offset `o` of the segment. -/
def Segment.read (g : Segment) (o : Nat) : Word := Cells.read g.cells o

/-- Replaces the word at offset `o`; the length stays (20_memory.md R49). -/
def Segment.write (g : Segment) (o : Nat) (v : Word) : Segment :=
  { g with cells := Cells.write g.cells o v }

/-- At most 2^32 - 1 words (10_state.md R33), listed in canonical form. -/
abbrev Segment.wf (g : Segment) : Prop := g.len ≤ 4294967295 ∧ Cells.wf g.len g.cells

/-! ## The segment store -/

/-- `hwm`, the number of slots ever created (10_state.md R30). -/
def Memory.hwm (m : Memory) : Nat := m.slots.length

/-- The segment behind a handle when `Live(h)`, none when `h ≥ hwm` or the slot is reclaimed (20_memory.md R47). -/
def Memory.liveSeg (m : Memory) (h : Nat) : Option Segment :=
  match m.slots[h]? with
  | some (.live g) => some g
  | some .reclaimed => none
  | none => none

/-- Whether `h` is in the reclaimed pool (10_state.md R31). -/
def Memory.inPool (m : Memory) (h : Nat) : Bool := m.slots[h]? == some .reclaimed

/-- `SegLen(0)` (20_memory.md R47); 0 where slot 0 is not live, which no booted machine reaches (10_state.md R32). -/
def Memory.progLen (m : Memory) : Nat :=
  match m.liveSeg 0 with
  | some g => g.len
  | none => 0

/-- The number of live words in a list of slots. -/
def slotWords : List Slot → Nat
  | [] => 0
  | .live g :: ss => g.len + slotWords ss
  | .reclaimed :: ss => slotWords ss

/-- `live_words`, the sum of `SegLen` over all live slots (20_memory.md R50). -/
def Memory.liveWords (m : Memory) : Nat := slotWords m.slots

/-- The lowest index of a reclaimed slot. -/
def lowestReclaimed : List Slot → Option Nat
  | [] => none
  | .reclaimed :: _ => some 0
  | .live _ :: ss => (lowestReclaimed ss).map (· + 1)

/-- Slot `h` made `slot`; a handle equal to `hwm` appends a new slot (20_memory.md R50). -/
def Memory.putSlot (m : Memory) (h : Nat) (slot : Slot) : Memory :=
  if h = m.hwm then { slots := m.slots ++ [slot] } else { slots := m.slots.set h slot }

/-- Whether this many live words exceed `MEM_CAPACITY` (20_memory.md R58). -/
def exceedsCapacity (cfg : Config) (words : Nat) : Bool :=
  match cfg.memCapacity with
  | none => false
  | some cap => cap < words

/-- `MemRead((h, o), 1)` (20_memory.md R48). -/
def Memory.read (m : Memory) (h o : Word) : Except FaultKind Word :=
  match m.liveSeg h.toNat with
  | none => .error .segBadHandle
  | some g => if g.len ≤ o.toNat then .error .segBadOffset else .ok (g.read o.toNat)

/-- `MemWrite((h, o), 1, v)` (20_memory.md R49). -/
def Memory.write (m : Memory) (h o v : Word) : Except FaultKind Memory :=
  match m.liveSeg h.toNat with
  | none => .error .segBadHandle
  | some g =>
    if g.len ≤ o.toNat then .error .segBadOffset
    else .ok (m.putSlot h.toNat (.live (g.write o.toNat v)))

/-- The handle `Allocate` uses: the lowest reclaimed one, else `hwm` (20_memory.md R50, R52). -/
def Memory.chooseHandle (cfg : Config) (m : Memory) : Except FaultKind Nat :=
  match lowestReclaimed m.slots with
  | some h => .ok h
  | none => if m.hwm = cfg.maxSlots then .error .handleExhausted else .ok m.hwm

/-- `Allocate(n)` (20_memory.md R50): the handle and the store after it, or the fault with the store unchanged. -/
def Memory.allocate (cfg : Config) (m : Memory) (n : Word) : Except FaultKind (Nat × Memory) :=
  if n = 0#32 then .error .mapZeroLength
  else
    match m.chooseHandle cfg with
    | .error k => .error k
    | .ok h =>
      if exceedsCapacity cfg (m.liveWords + n.toNat) then .error .memoryExhausted
      else .ok (h, m.putSlot h (.live (Segment.zeros n.toNat)))

/-- `Free(h)` (20_memory.md R54); `hwm` is unchanged. -/
def Memory.free (m : Memory) (h : Word) : Except FaultKind Memory :=
  if h = 0#32 then .error .unmapInvalid
  else
    match m.liveSeg h.toNat with
    | none => .error .unmapInvalid
    | some _ => .ok (m.putSlot h.toNat .reclaimed)

/-- `DupIntoZero(h)` (20_memory.md R56). -/
def Memory.dupIntoZero (cfg : Config) (m : Memory) (h : Word) : Except FaultKind Memory :=
  if h = 0#32 then .ok m
  else
    match m.liveSeg h.toNat with
    | none => .error .loadpBadHandle
    | some g =>
      if exceedsCapacity cfg (m.liveWords - m.progLen + g.len) then .error .memoryExhausted
      else .ok (m.putSlot 0 (.live g))

/-- The store part of load-program (45_load_program_and_value.md R160): the copy, then the test of the target
against the length of segment 0 after the copy. -/
def Memory.loadProgram (cfg : Config) (m : Memory) (h t : Word) : Except FaultKind Memory :=
  match m.dupIntoZero cfg h with
  | .error k => .error k
  | .ok m' => if m'.progLen ≤ t.toNat then .error .loadpBadTarget else .ok m'

/-- A slot's segment is in its form and has at least `minLen` words. -/
def Slot.wf (minLen : Nat) : Slot → Bool
  | .live g => decide (minLen ≤ g.len ∧ g.wf)
  | .reclaimed => true

/-- The store's form: slot 0 is live (10_state.md R32), every segment is canonical and not too long, and every
segment but 0 has a word (R33). Segment 0 has none only before the boot port's image (log entry 10). -/
abbrev Memory.wf (m : Memory) : Prop :=
  (m.liveSeg 0).isSome = true ∧ (∀ slot ∈ m.slots, slot.wf 0 = true) ∧ ∀ slot ∈ m.slots.tail, slot.wf 1 = true

/-! ## The step's shared parts -/

/-- The instruction word at `(0, pc)`: the `w` of 40_execution_cycle.md R105. It is 0 where no word is there, which no
step reaches (log entry 11). -/
def State.instrWord (s : State) : Word :=
  match s.memory.read 0#32 s.pc with
  | .ok w => w
  | .error _ => 0#32

/-- The end-of-program test and the fetch (40_execution_cycle.md R101, R102), with R204's case before them. -/
def State.fetch (s : State) : FetchResult :=
  if s.memory.progLen = 0 then .noProgram
  else if s.memory.progLen ≤ s.pc.toNat then .endOfProgram
  else .word s.instrWord

/-- Reaching the end of segment 0: the run state changes and nothing else (40_execution_cycle.md R101). -/
def State.endProgram (s : State) : State := s.setRunState (.halted .endOfProgram)

/-- `pc <- pc + 1` (40_execution_cycle.md R103). -/
def State.advance (s : State) : State := s.setPc (add32 s.pc 1#32)

/-- TAKING A FAULT (60_exceptions.md R175), from the state before the step: the run state becomes
`FAULTED(k, fpc, w)` and nothing else changes, so the fault is precise and `pc = fpc` (40_execution_cycle.md R106). -/
def State.takeFault (s : State) (k : FaultKind) : State :=
  s.setRunState (.faulted k s.pc s.instrWord)

/-- Goes on with a store operation's result, or takes its fault (00_scope.md R9 `raise Fault(kind)`). -/
def State.orFault {α : Type} (s : State) (r : Except FaultKind α) (next : α → StepResult) : StepResult :=
  match r with
  | .error k => .next (s.takeFault k)
  | .ok v => next v

/-- `OutputByte(b)`: one byte delivered, in execution order (10_state.md R37, R39). -/
def State.deliver (s : State) (b : Byte) : State := { s with output := s.output ++ [b] }

/-- For `withFetchWord`: the program segment with `w` at offset `o`, made long enough to hold it (log entry 16). -/
def Memory.placeWord (m : Memory) (o : Nat) (w : Word) : Memory :=
  let g := (m.liveSeg 0).getD (Segment.zeros 0)
  m.putSlot 0 (.live { (g.write o w) with len := max g.len (o + 1) })

/-- For `withFetchWord`: the offset to place the word at, which is `pc` unless no segment can hold that offset. -/
def State.placeOffset (s : State) : Word := if s.pc = 0xFFFFFFFF#32 then 0#32 else s.pc

end Sys2Proof.Machine
end

