-- ==== Sys2Proof/Machine/Alloc.lean ====
section
/-! DEFINITION. Halt, map segment, unmap segment (43_halt_and_allocation.md). -/

namespace Sys2Proof.Machine

/-- HALT (R140): `pc` keeps the value the fetch gave it. -/
def execHalt (s : State) : StepResult :=
  .next (s.advance.setRunState (.halted .haltInstruction))

/-- MAP-SEGMENT (R141): the count is read before the handle is written. -/
def execMap (b c : Reg) (s : State) : StepResult :=
  let n := s.getReg c
  s.orFault (s.memory.allocate s.cfg n) fun r =>
    .next ((s.advance.setMemory r.2).setReg b (BitVec.ofNat 32 r.1))

/-- UNMAP-SEGMENT (R142). -/
def execUnmap (c : Reg) (s : State) : StepResult :=
  let h := s.getReg c
  s.orFault (s.memory.free h) fun m => .next (s.advance.setMemory m)

end Sys2Proof.Machine
end

