-- ==== Sys2Proof/Machine/Arith.lean ====
section
/-! DEFINITION. Add, multiply, divide, nand (42_arithmetic_logic.md): unsigned 32-bit operations, no flags. -/

namespace Sys2Proof.Machine

/-- The shape of the family: both sources are read, then A is written (40_execution_cycle.md R107). -/
def writeBinary (f : Word → Word → Word) (a b c : Reg) (s : State) : State :=
  s.advance.setReg a (f (s.getReg b) (s.getReg c))

/-- ADD (R130). -/
def execAdd (a b c : Reg) (s : State) : StepResult := .next (writeBinary add32 a b c s)

/-- MULTIPLY (R131). -/
def execMul (a b c : Reg) (s : State) : StepResult := .next (writeBinary mul32 a b c s)

/-- DIVIDE (R132): the divisor is tested before the write. -/
def execDiv (a b c : Reg) (s : State) : StepResult :=
  if s.getReg c = 0#32 then .next (s.takeFault .divideByZero)
  else .next (writeBinary div32 a b c s)

/-- NAND (R133). -/
def execNand (a b c : Reg) (s : State) : StepResult := .next (writeBinary nand32 a b c s)

end Sys2Proof.Machine
end

