-- ==== Sys2Proof/Machine/InOut.lean ====
section
/-! DEFINITION. Output and input (44_io.md). -/

namespace Sys2Proof.Machine

/-- OUTPUT (R150): a value above 255 faults and delivers nothing. -/
def execOut (c : Reg) (s : State) : StepResult :=
  let v := s.getReg c
  if 255 < v.toNat then .next (s.takeFault .outputRange)
  else .next (s.advance.deliver (v.setWidth 8))

/-- INPUT (R151): takes the host's oldest answer. While the host has given none the block holds in `RUNNING` and
nothing changes (40_execution_cycle.md R108; log entry 7). -/
def execInp (c : Reg) (s : State) : StepResult :=
  match s.input with
  | [] => .next s
  | r :: rest => .next ((s.advance.setInput rest).setReg c r.value)

end Sys2Proof.Machine
end

