-- ==== Sys2Proof/Machine/Invalid.lean ====
section
/-! DEFINITION. The two unassigned opcodes: decoding such a word raises INVALID_OPCODE whatever its other bits hold
(30_encoding.md R89, 60_exceptions.md R170), and the meaning takes that fault. -/

namespace Sys2Proof.Machine

/-- Opcode 14 (R89). -/
def execInvalid14 (_payload : BitVec 28) (s : State) : StepResult :=
  .next (s.takeFault .invalidOpcode)

/-- Opcode 15 (R89). -/
def execInvalid15 (_payload : BitVec 28) (s : State) : StepResult :=
  .next (s.takeFault .invalidOpcode)

end Sys2Proof.Machine
end

