-- ==== Sys2Proof/Machine/Flags.lean ====
section
/-! DEFINITION. The machine has no status flags, condition codes or predicate registers (10_state.md R28), so no
flag is ever computed. The only condition is conditional-move's test of a general register. -/

namespace Sys2Proof.Machine

/-- The only conditional behaviour "tests a general register against zero" (10_state.md R28; R120). -/
def condHolds (v : Word) : Bool := v != 0#32

end Sys2Proof.Machine
end

