-- ==== Sys2Proof/Machine/Move.lean ====
section
/-! DEFINITION. Conditional move, segment load, segment store (41_move_and_segment_access.md). Every meaning takes the
state before the step, `pc` at its own offset, and answers the state after it (40_execution_cycle.md R105). -/

namespace Sys2Proof.Machine

/-- CONDITIONAL-MOVE (R120): the condition and the source are read before the write. -/
def execCmov (a b c : Reg) (s : State) : StepResult :=
  let cond := s.getReg c
  let v := s.getReg b
  .next (if condHolds cond then s.advance.setReg a v else s.advance)

/-- SEGMENT-LOAD (R121). -/
def execSload (a b c : Reg) (s : State) : StepResult :=
  let h := s.getReg b
  let o := s.getReg c
  s.orFault (s.memory.read h o) fun v => .next (s.advance.setReg a v)

/-- SEGMENT-STORE (R122). -/
def execSstore (a b c : Reg) (s : State) : StepResult :=
  let h := s.getReg a
  let o := s.getReg b
  let v := s.getReg c
  s.orFault (s.memory.write h o v) fun m => .next (s.advance.setMemory m)

end Sys2Proof.Machine
end

