-- ==== Sys2Proof/Machine/Program.lean ====
section
/-! DEFINITION. Load program and load value (45_load_program_and_value.md). -/

namespace Sys2Proof.Machine

/-- LOAD-PROGRAM (R160): the block's only control transfer. -/
def execLoadp (b c : Reg) (s : State) : StepResult :=
  let h := s.getReg b
  let t := s.getReg c
  s.orFault (s.memory.loadProgram s.cfg h t) fun m => .next ((s.setMemory m).setPc t)

/-- LOAD-VALUE (R161). -/
def execLv (a : Reg) (imm : Nat) (s : State) : StepResult :=
  .next (s.advance.setReg a (zextImm imm))

end Sys2Proof.Machine
end

