-- ==== Sys2Proof/Machine/Step.lean ====
section
/-! DEFINITION. The one step of the unit (40_execution_cycle.md R105). -/

namespace Sys2Proof.Machine

/-- The step (R100 to R105). The increment of `pc` (R103) is part of each meaning, so that a fault leaves the state
before the step (R106). A state whose run has ended has no step (R100; log entry 9). -/
def step (s : State) : Host.Outcome State Fault Refusal :=
  match s.runState with
  | .halted _ => .fault .runHalted
  | .faulted _ _ _ => .fault .runFaulted
  | .running =>
    match s.fetch with
    | .noProgram => .refused .noProgram
    | .endOfProgram => .next s.endProgram
    | .word w => exec (decode w) s

/-- `s` running, with the word `w` in segment 0 where the next step fetches (log entries 10 and 16). -/
def State.withFetchWord (s : State) (nbits w : Nat) : State :=
  { s with
    pc := s.placeOffset
    runState := .running
    memory := s.memory.placeWord s.placeOffset.toNat (BitVec.ofNat 32 (w % 2 ^ nbits)) }

end Sys2Proof.Machine
end

