-- ==== Sys2Proof/Machine/HostPort.lean ====
section
/-! DEFINITION. What the outside world does to the block and sees of it (10_state.md R36 to R41; 70_reset_and_hazards.md
R202 to R204): the boot port, the reset input, the input channel's answers, the status output. These are not steps
of the unit; they land between steps. -/

namespace Sys2Proof.Machine

/-- The words of a boot image file, big-endian, four bytes a word (70_reset_and_hazards.md R203); none where bytes are
left over, since what a loader does then is outside the block (log entry 22). -/
def imageOfBytes : List Byte → Option (List Word)
  | [] => some []
  | b0 :: b1 :: b2 :: b3 :: rest =>
    (imageOfBytes rest).map
      (BitVec.ofNat 32 (b0.toNat * 2 ^ 24 + b1.toNat * 2 ^ 16 + b2.toNat * 2 ^ 8 + b3.toNat) :: ·)
  | [_] => none
  | [_, _] => none
  | [_, _, _] => none

/-- The boot port (70_reset_and_hazards.md R202): reset, then the image becomes segment 0. An empty image is refused
(R204), and so is one longer than a segment can be (10_state.md R33; log entry 12). -/
def State.boot (cfg : Config) (image : List Word) : StepResult :=
  if image.length = 0 then .refused .emptyImage
  else if 4294967295 < image.length then .refused .imageTooLong
  else .next (State.resetWith cfg (Segment.ofWords image))

/-- The reset input (10_state.md R41): a new run from a new boot image, nothing kept but the parameters. -/
def State.assertReset (s : State) (image : List Word) : StepResult := State.boot s.cfg image

/-- The host's answer to the next input request not yet answered (10_state.md R38). -/
def State.hostAnswers (s : State) (r : InputResponse) : State := { s with input := s.input ++ [r] }

/-- The exit status (10_state.md R40): 0 after a normal end, `EXIT_FAULT` after a fault, none while running. -/
def State.exitStatus (s : State) : Option Word :=
  match s.runState with
  | .running => none
  | .halted _ => some 0#32
  | .faulted _ _ _ => some Config.exitFault

/-- The numeric code of a fault kind (60_exceptions.md R170). -/
def FaultKind.code : FaultKind → Nat
  | .invalidOpcode => 1
  | .divideByZero => 2
  | .segBadHandle => 3
  | .segBadOffset => 4
  | .mapZeroLength => 5
  | .handleExhausted => 6
  | .memoryExhausted => 7
  | .unmapInvalid => 8
  | .outputRange => 9
  | .loadpBadHandle => 10
  | .loadpBadTarget => 11

/-- The input hold (40_execution_cycle.md R108): running, an input instruction due, no answer from the host yet. -/
def State.awaitingInput (s : State) : Bool :=
  match s.runState, s.fetch, s.input with
  | .running, .word w, [] =>
    match decode w with
    | .inp _ => true
    | _ => false
  | _, _, _ => false

end Sys2Proof.Machine
end

