-- ==== Sys2Proof/Safety.lean ====
section
/-! DEFINITION. What claims about the machine are stated in: the invariant of a state, the states a run can reach, what a
safe step is, and the frame of an instruction. -/

namespace Sys2Proof.Machine

/-- THE INVARIANT: the store's form, the parameters' range (00_scope.md R5), `hwm ≤ MAX_SLOTS` (10_state.md R30), and
`pc ≤ SegLen(0)`, by which a fetch's increment never wraps (R24). -/
abbrev State.wf (s : State) : Prop :=
  s.memory.wf ∧ s.cfg.wf ∧ s.memory.hwm ≤ s.cfg.maxSlots ∧ s.pc.toNat ≤ s.memory.progLen

/-- Segment 0 has a word: the boot port has handed over its image (10_state.md R32, R33). -/
abbrev State.booted (s : State) : Prop := 1 ≤ s.memory.progLen

/-- The live words are within `MEM_CAPACITY` (20_memory.md R58). -/
abbrev State.withinCapacity (s : State) : Prop := exceedsCapacity s.cfg s.memory.liveWords = false

/-- The run state is not `FAULTED`. -/
def State.notFaulted (s : State) : Bool :=
  match s.runState with
  | .running => true
  | .halted _ => true
  | .faulted _ _ _ => false

/-- A SAFE STEP: the unit takes a step and it raises no fault of 60_exceptions.md R170. -/
def State.stepsSafely (s : State) : Prop := ∃ t, step s = .next t ∧ t.notFaulted = true

/-- A state of some run: from a boot of any image under any parameters, by steps of the unit and acts of the host. -/
inductive Reachable : State → Prop
  | boot (cfg : Config) (image : List Word) (s : State) (hc : cfg.wf) (hb : State.boot cfg image = .next s) : Reachable s
  | step (s t : State) (hs : Reachable s) (ht : step s = .next t) : Reachable t
  | answer (s : State) (r : InputResponse) (hs : Reachable s) : Reachable (s.hostAnswers r)
  | reset (s t : State) (image : List Word) (hs : Reachable s) (ht : s.assertReset image = .next t) : Reachable t

/-- The register an instruction may write (10_state.md R21). -/
def destReg : Instr → Option Reg
  | .cmov a _ _ => some a
  | .sload a _ _ => some a
  | .add a _ _ => some a
  | .mul a _ _ => some a
  | .div a _ _ => some a
  | .nand a _ _ => some a
  | .map b _ => some b
  | .inp c => some c
  | .lv a _ => some a
  | .sstore _ _ _ => none
  | .halt => none
  | .unmap _ => none
  | .out _ => none
  | .loadp _ _ => none
  | .invalid14 _ => none
  | .invalid15 _ => none

/-- Whether an instruction can change the segment store (20_memory.md R46). -/
def changesStore : Instr → Bool
  | .sstore _ _ _ => true
  | .map _ _ => true
  | .unmap _ => true
  | .loadp _ _ => true
  | .cmov _ _ _ => false
  | .sload _ _ _ => false
  | .add _ _ _ => false
  | .mul _ _ _ => false
  | .div _ _ _ => false
  | .nand _ _ _ => false
  | .halt => false
  | .out _ => false
  | .inp _ => false
  | .lv _ _ => false
  | .invalid14 _ => false
  | .invalid15 _ => false

/-- The instructions that can raise a fault kind (60_exceptions.md R170, column "raised by"). -/
def raisedBy : FaultKind → Instr → Bool
  | .invalidOpcode, .invalid14 _ => true
  | .invalidOpcode, .invalid15 _ => true
  | .divideByZero, .div _ _ _ => true
  | .segBadHandle, .sload _ _ _ => true
  | .segBadHandle, .sstore _ _ _ => true
  | .segBadOffset, .sload _ _ _ => true
  | .segBadOffset, .sstore _ _ _ => true
  | .mapZeroLength, .map _ _ => true
  | .handleExhausted, .map _ _ => true
  | .memoryExhausted, .map _ _ => true
  | .memoryExhausted, .loadp _ _ => true
  | .unmapInvalid, .unmap _ => true
  | .outputRange, .out _ => true
  | .loadpBadHandle, .loadp _ _ => true
  | .loadpBadTarget, .loadp _ _ => true
  | _, _ => false

/-! ## Encodings, as statements say them -/

/-- Every word of this opcode numeral, its fields where the standard format has them (30_encoding.md R81), is decoded
to this instruction of its selectors. -/
def DecodesStd (op : Nat) (f : Reg → Reg → Reg → Instr) : Prop :=
  ∀ (w : Word) (a b c : Reg), bits w 31 28 = op → a.val = bits w 8 6 → b.val = bits w 5 3 → c.val = bits w 2 0 →
    decode w = f a b c

/-- The same for the immediate format (30_encoding.md R82). -/
def DecodesLv (op : Nat) (f : Reg → Nat → Instr) : Prop :=
  ∀ (w : Word) (a : Reg) (imm : Nat), bits w 31 28 = op → a.val = bits w 27 25 → imm = bits w 24 0 →
    decode w = f a imm

/-! ## Frames -/

/-- FRAME: every register but those of `rs` holds what it held. -/
def SameRegsBut (rs : List Reg) (s t : State) : Prop := ∀ r, r ∉ rs → t.getReg r = s.getReg r

/-- FRAME: the segment store is the same data, and so every address reads as it did. -/
def SameStore (s t : State) : Prop :=
  t.memory = s.memory ∧ ∀ h o, t.memory.read h o = s.memory.read h o

/-- FRAME: slot `k` is live with the same segment, in the pool, or not created, as it was. -/
def SameSlot (k : Nat) (s t : State) : Prop :=
  t.memory.liveSeg k = s.memory.liveSeg k ∧ t.memory.inPool k = s.memory.inPool k

/-- FRAME: every address of another handle reads as it did, and every other slot is as it was. -/
def SameStoreBut (h : Nat) (s t : State) : Prop :=
  (∀ k, k ≠ h → SameSlot k s t) ∧ ∀ (k o : Word), k.toNat ≠ h → t.memory.read k o = s.memory.read k o

/-- FRAME: the run state, both channels and the parameters are as they were. -/
def SameRest (s t : State) : Prop :=
  t.runState = s.runState ∧ t.input = s.input ∧ t.output = s.output ∧ t.cfg = s.cfg

/-- The frame of an instruction whose only effects are register `rd` and the increment of `pc`. -/
def OnlyRegister (rd : Reg) (s t : State) : Prop :=
  SameRegsBut [rd] s t ∧ t.pc = s.pc + 1#32 ∧ SameStore s t ∧ SameRest s t

/-- `n` live words fit `MEM_CAPACITY` (20_memory.md R58). -/
def FitsCapacity (cfg : Config) (n : Nat) : Prop := ∀ cap, cfg.memCapacity = some cap → n ≤ cap

/-- `n` live words exceed a finite `MEM_CAPACITY` (20_memory.md R58). -/
def OverCapacity (cfg : Config) (n : Nat) : Prop := ∃ cap, cfg.memCapacity = some cap ∧ cap < n

/-- No handle is in the reclaimed pool. -/
def PoolEmpty (m : Memory) : Prop := ∀ k, m.inPool k = false

/-- `h` is the lowest handle of the pool. -/
def LowestInPool (m : Memory) (h : Nat) : Prop := m.inPool h = true ∧ ∀ k, k < h → m.inPool k = false

/-- Some handle can be issued: the pool is not empty, or `hwm` has not reached `MAX_SLOTS` (20_memory.md R50). -/
def HandleAvailable (cfg : Config) (m : Memory) : Prop := ¬ PoolEmpty m ∨ m.hwm ≠ cfg.maxSlots

/-- The handle is out of range or reclaimed: not live (20_memory.md R47). -/
def NotLive (m : Memory) (h : Nat) : Prop := m.hwm ≤ h ∨ m.inPool h = true

/-- The state a fault leaves (60_exceptions.md R175): only the run state is replaced, by the kind, the instruction's
own offset and its word. -/
def State.faultedBy (s : State) (k : FaultKind) (w : Word) : State :=
  { s with runState := .faulted k s.pc w }

/-- `t` has the values of 70_reset_and_hazards.md R200 for this boot image and these parameters: `w_i` at offset `i` of
segment 0 (R202), no answer pending and no byte delivered (log entries 7 and 8). -/
def HasResetValues (cfg : Config) (image : List Word) (t : State) : Prop :=
  (∀ r : Reg, t.getReg r = cfg.regReset[r]) ∧ t.pc = 0#32 ∧ t.runState = .running ∧
  t.memory.hwm = 1 ∧ t.memory.progLen = image.length ∧
  (∀ o : Word, t.memory.read 0#32 o =
    if o.toNat < image.length then .ok (image.getD o.toNat 0#32) else .error .segBadOffset) ∧
  PoolEmpty t.memory ∧ t.output = [] ∧ t.input = [] ∧ t.cfg = cfg

/-- The instruction takes the fault `k`, and nothing else of it is visible; the word recorded is the one at `(0, pc)`. -/
def RaisesFault (i : Instr) (s : State) (k : FaultKind) : Prop :=
  exec i s = .next (s.faultedBy k s.instrWord)

end Sys2Proof.Machine
end

