-- ==== Sys2Proof/Certificates/Slice0/Obligations.lean ====
section
/-! DEFINITION. The statements about the model, for the provers. Each says which rule of spec/ it formalises. -/

open Sys2Proof Sys2Proof.Machine

/-! ## Encoding -/

/-- 30_encoding.md R92 with R81 to R83: decoding an encoded well-formed instruction gives it back, every operand at
every value the encoding admits. -/
def Obligations.EncodeThenDecodeIsIdentity : Prop :=
  ∀ i : Instr, i.WellFormed → decode (encode i) = i

/-- 30_encoding.md R87: encoding a decoded word gives the word with its ignored bits cleared, and the decoder gives
well-formed instructions only. -/
def Obligations.DecodeThenEncodeClearsIgnoredBits : Prop :=
  ∀ w : Word, (decode w).WellFormed ∧ encode (decode w) = w &&& usedMask (decode w)

/-- 30_encoding.md R87: two words that agree on the bits their opcode uses decode to one instruction, and so execute
identically. The used bits are written out by opcode numeral. -/
def Obligations.IgnoredBitsHaveNoEffect : Prop :=
  ∀ (w v : Word), bits w 31 28 = bits v 31 28 →
    (bits w 31 28 ∈ [0, 1, 2, 3, 4, 5, 6] → bits w 8 0 = bits v 8 0) →
    (bits w 31 28 ∈ [8, 12] → bits w 5 0 = bits v 5 0) →
    (bits w 31 28 ∈ [9, 10, 11] → bits w 2 0 = bits v 2 0) →
    (bits w 31 28 ∈ [13, 14, 15] → bits w 27 0 = bits v 27 0) →
    decode w = decode v ∧ ∀ s, exec (decode w) s = exec (decode v) s

/-- 30_encoding.md R89: a word is decoded to an invalid instruction exactly when its opcode is 14 or 15, whatever its
other 28 bits hold, and the step that fetches it raises INVALID_OPCODE. -/
def Obligations.InvalidOpcodesAreExactly14And15 : Prop :=
  (∀ w : Word, (∃ p, decode w = .invalid14 p ∨ decode w = .invalid15 p) ↔ 13 < bits w 31 28) ∧
  (∀ (p : BitVec 28) (s : State),
    RaisesFault (.invalid14 p) s .invalidOpcode ∧ RaisesFault (.invalid15 p) s .invalidOpcode) ∧
  ∀ (s : State) (w : Word), s.runState = .running → s.memory.read 0#32 s.pc = .ok w → 13 < bits w 31 28 →
    step s = .next (s.faultedBy .invalidOpcode w)

/-- 30_encoding.md R92: the words of every instruction from its fields, and the two worked examples, which the spec derives
from R81, R82 and R84. The opcode numerals are R84's, the spec's own decision D7 (log entry 4); unused selectors are 0 by
R90, its decision D17. -/
def Obligations.EncodingFormulas : Prop :=
  (∀ a b c : Reg,
    encode (.cmov a b c) = BitVec.ofNat 32 (0 * 2 ^ 28 + a * 2 ^ 6 + b * 2 ^ 3 + c) ∧
    encode (.sload a b c) = BitVec.ofNat 32 (1 * 2 ^ 28 + a * 2 ^ 6 + b * 2 ^ 3 + c) ∧
    encode (.sstore a b c) = BitVec.ofNat 32 (2 * 2 ^ 28 + a * 2 ^ 6 + b * 2 ^ 3 + c) ∧
    encode (.add a b c) = BitVec.ofNat 32 (3 * 2 ^ 28 + a * 2 ^ 6 + b * 2 ^ 3 + c) ∧
    encode (.mul a b c) = BitVec.ofNat 32 (4 * 2 ^ 28 + a * 2 ^ 6 + b * 2 ^ 3 + c) ∧
    encode (.div a b c) = BitVec.ofNat 32 (5 * 2 ^ 28 + a * 2 ^ 6 + b * 2 ^ 3 + c) ∧
    encode (.nand a b c) = BitVec.ofNat 32 (6 * 2 ^ 28 + a * 2 ^ 6 + b * 2 ^ 3 + c) ∧
    encode .halt = BitVec.ofNat 32 (7 * 2 ^ 28) ∧
    encode (.map b c) = BitVec.ofNat 32 (8 * 2 ^ 28 + b * 2 ^ 3 + c) ∧
    encode (.unmap c) = BitVec.ofNat 32 (9 * 2 ^ 28 + c) ∧
    encode (.out c) = BitVec.ofNat 32 (10 * 2 ^ 28 + c) ∧
    encode (.inp c) = BitVec.ofNat 32 (11 * 2 ^ 28 + c) ∧
    encode (.loadp b c) = BitVec.ofNat 32 (12 * 2 ^ 28 + b * 2 ^ 3 + c)) ∧
  (∀ (a : Reg) (imm : Nat), imm ≤ 0x01FFFFFF →
    encode (.lv a imm) = BitVec.ofNat 32 (13 * 2 ^ 28 + a * 2 ^ 25 + imm)) ∧
  encode (.add 1 2 3) = 0x30000053#32 ∧ encode (.lv 1 72) = 0xD2000048#32

/-- Words of 95_test_vectors.md, written out from the formats of 30_encoding.md, decode to what they stand for. -/
def Obligations.HandWrittenWordsDecode : Prop :=
  decode 0x00000053#32 = .cmov 1 2 3 ∧ decode 0x200000A3#32 = .sstore 2 4 3 ∧ decode 0x3FFFFE53#32 = .add 1 2 3 ∧
  decode 0x7FFFFFFF#32 = .halt ∧ decode 0x80000031#32 = .map 6 1 ∧ decode 0xA0000001#32 = .out 1 ∧
  decode 0xC000002E#32 = .loadp 5 6 ∧ decode 0xDFFFFFFF#32 = .lv 7 0x01FFFFFF ∧
  decode 0xE0000000#32 = .invalid14 0 ∧ decode 0xFFFFFFFF#32 = .invalid15 0x0FFFFFFF

/-! ## The step -/

/-- 40_execution_cycle.md R105: in RUNNING with `pc` inside segment 0, the step is the meaning of the word at
`(0, pc)`, applied to the state before the step. The increment of `pc` (R103) is part of the meaning, as each
instruction's own statement says. -/
def Obligations.StepRunsTheDecodedInstruction : Prop :=
  ∀ (s : State) (w : Word), s.runState = .running → s.memory.read 0#32 s.pc = .ok w → step s = exec (decode w) s

/-- The model's `withFetchWord` (log entries 10 and 16): from every state of the store's form the next step runs the
given word. -/
def Obligations.PlacedWordIsTheOneRun : Prop :=
  ∀ (s : State) (nbits w : Nat), s.memory.wf →
    step (s.withFetchWord nbits w) = exec (decode (BitVec.ofNat 32 (w % 2 ^ nbits))) (s.withFetchWord nbits w)

/-- 40_execution_cycle.md R101: at or past the end of segment 0 the run ends normally and nothing else changes. A segment
0 of no words is none the spec has (10_state.md R33). -/
def Obligations.EndOfProgramEndsTheRun : Prop :=
  ∀ s : State, s.runState = .running → s.booted → s.memory.progLen ≤ s.pc.toNat →
    ∃ t, step s = .next t ∧ t = { s with runState := .halted .endOfProgram } ∧ t.exitStatus = some 0#32

/-- 40_execution_cycle.md R100: a step is taken only in RUNNING. That a state with no step answers a fault by name is the
model's choice (log entry 9). -/
def Obligations.EndedRunsTakeNoStep : Prop :=
  ∀ s : State, ((∃ t, step s = .next t) → s.runState = .running) ∧
    (∀ c, s.runState = .halted c → step s = .fault .runHalted) ∧
    ∀ k p w, s.runState = .faulted k p w → step s = .fault .runFaulted

/-- 60_exceptions.md R170, 40_execution_cycle.md R105: every instruction answers a next state whatever the data, so a
running machine that has been booted always steps; nothing of the model stops a run but its end. For an input
instruction without an answer of the host, R108 says that the step waits: that this wait is a next state, equal to the
state before, is the model's choice (log entry 7). -/
def Obligations.RunningMachineAlwaysSteps : Prop :=
  (∀ (i : Instr) (s : State), ∃ t, exec i s = .next t) ∧
  ∀ s : State, s.runState = .running → s.booted → ∃ t, step s = .next t

/-- 70_reset_and_hazards.md R204: an empty image is refused at the boot port, and no step is taken without an image. That
the reset state stands for "no image yet" is the model's choice (log entry 10). -/
def Obligations.EmptyImageIsRefused : Prop :=
  (∀ cfg, State.boot cfg [] = .refused .emptyImage) ∧
  (∀ s : State, s.runState = .running → s.memory.progLen = 0 → step s = .refused .noProgram) ∧
  step State.reset = .refused .noProgram

/-! ## Instructions

Each statement names its opcode numeral as its rule does. The numerals are assigned by 30_encoding.md R84, which the spec
marks as its own decision D7 (log entry 4). -/

/-- 41_move_and_segment_access.md R120, with its encoding. -/
def Obligations.CmovMovesWhenConditionHolds : Prop :=
  DecodesStd 0 .cmov ∧
  ∀ (a b c : Reg) (s : State), ∃ t, exec (.cmov a b c) s = .next t ∧
    t.getReg a = (if s.getReg c = 0#32 then s.getReg a else s.getReg b) ∧ OnlyRegister a s t

/-- 41_move_and_segment_access.md R121, with its encoding and both faults. -/
def Obligations.SloadReadsTheWord : Prop :=
  DecodesStd 1 .sload ∧
  ∀ (a b c : Reg) (s : State),
    (∀ g, s.memory.liveSeg (s.getReg b).toNat = some g → (s.getReg c).toNat < g.len →
      ∃ t, exec (.sload a b c) s = .next t ∧ t.getReg a = g.read (s.getReg c).toNat ∧ OnlyRegister a s t) ∧
    (NotLive s.memory (s.getReg b).toNat → RaisesFault (.sload a b c) s .segBadHandle) ∧
    ∀ g, s.memory.liveSeg (s.getReg b).toNat = some g → g.len ≤ (s.getReg c).toNat →
      RaisesFault (.sload a b c) s .segBadOffset

/-- 41_move_and_segment_access.md R122, with its encoding, its frame and both faults. The premise on the store's form
rules out lists of words no operation makes (`StepKeepsTheInvariant`). -/
def Obligations.SstoreWritesTheWord : Prop :=
  DecodesStd 2 .sstore ∧
  ∀ (a b c : Reg) (s : State), s.memory.wf →
    (∀ g, s.memory.liveSeg (s.getReg a).toNat = some g → (s.getReg b).toNat < g.len →
      ∃ t, exec (.sstore a b c) s = .next t ∧
        t.memory.read (s.getReg a) (s.getReg b) = .ok (s.getReg c) ∧
        (∀ h o, (h, o) ≠ (s.getReg a, s.getReg b) → t.memory.read h o = s.memory.read h o) ∧
        SameStoreBut (s.getReg a).toNat s t ∧ t.memory.hwm = s.memory.hwm ∧
        SameRegsBut [] s t ∧ t.pc = s.pc + 1#32 ∧ SameRest s t) ∧
    (NotLive s.memory (s.getReg a).toNat → RaisesFault (.sstore a b c) s .segBadHandle) ∧
    ∀ g, s.memory.liveSeg (s.getReg a).toNat = some g → g.len ≤ (s.getReg b).toNat →
      RaisesFault (.sstore a b c) s .segBadOffset

/-- 42_arithmetic_logic.md R130, with its encoding. -/
def Obligations.AddWrapsModulo : Prop :=
  DecodesStd 3 .add ∧
  ∀ (a b c : Reg) (s : State), ∃ t, exec (.add a b c) s = .next t ∧
    (t.getReg a).toNat = ((s.getReg b).toNat + (s.getReg c).toNat) % 2 ^ 32 ∧ OnlyRegister a s t

/-- 42_arithmetic_logic.md R131, with its encoding. -/
def Obligations.MulKeepsTheLowHalf : Prop :=
  DecodesStd 4 .mul ∧
  ∀ (a b c : Reg) (s : State), ∃ t, exec (.mul a b c) s = .next t ∧
    (t.getReg a).toNat = (s.getReg b).toNat * (s.getReg c).toNat % 2 ^ 32 ∧ OnlyRegister a s t

/-- 42_arithmetic_logic.md R132, with its encoding and its fault. -/
def Obligations.DivIsUnsignedTruncating : Prop :=
  DecodesStd 5 .div ∧
  ∀ (a b c : Reg) (s : State),
    (s.getReg c ≠ 0#32 → ∃ t, exec (.div a b c) s = .next t ∧
      (t.getReg a).toNat = (s.getReg b).toNat / (s.getReg c).toNat ∧ OnlyRegister a s t) ∧
    (s.getReg c = 0#32 → RaisesFault (.div a b c) s .divideByZero)

/-- 42_arithmetic_logic.md R133, with its encoding: bit by bit. -/
def Obligations.NandIsBitwise : Prop :=
  DecodesStd 6 .nand ∧
  ∀ (a b c : Reg) (s : State), ∃ t, exec (.nand a b c) s = .next t ∧
    (∀ i, i < 32 → (t.getReg a).getLsbD i = !((s.getReg b).getLsbD i && (s.getReg c).getLsbD i)) ∧
    OnlyRegister a s t

/-- 43_halt_and_allocation.md R140, with its encoding. -/
def Obligations.HaltEndsTheRun : Prop :=
  DecodesStd 7 (fun _ _ _ => .halt) ∧
  ∀ s : State, ∃ t, exec .halt s = .next t ∧ t.runState = .halted .haltInstruction ∧ t.exitStatus = some 0#32 ∧
    t.pc = s.pc + 1#32 ∧ SameRegsBut [] s t ∧ SameStore s t ∧ t.input = s.input ∧ t.output = s.output ∧ t.cfg = s.cfg

/-- 43_halt_and_allocation.md R141, with its encoding, its frame and its three faults in order. -/
def Obligations.MapAllocatesASegment : Prop :=
  DecodesStd 8 (fun _ b c => .map b c) ∧
  ∀ (b c : Reg) (s : State),
    (s.getReg c ≠ 0#32 → HandleAvailable s.cfg s.memory →
      FitsCapacity s.cfg (s.memory.liveWords + (s.getReg c).toNat) →
      ∃ h t, exec (.map b c) s = .next t ∧ t.getReg b = BitVec.ofNat 32 h ∧
        (LowestInPool s.memory h ∨ (PoolEmpty s.memory ∧ h = s.memory.hwm)) ∧
        (∃ g, t.memory.liveSeg h = some g ∧ g.len = (s.getReg c).toNat ∧ ∀ o, g.read o = 0#32) ∧
        t.memory.hwm = (if h = s.memory.hwm then s.memory.hwm + 1 else s.memory.hwm) ∧
        SameStoreBut h s t ∧ SameRegsBut [b] s t ∧ t.pc = s.pc + 1#32 ∧ SameRest s t) ∧
    (s.getReg c = 0#32 → RaisesFault (.map b c) s .mapZeroLength) ∧
    (s.getReg c ≠ 0#32 → ¬ HandleAvailable s.cfg s.memory → RaisesFault (.map b c) s .handleExhausted) ∧
    (s.getReg c ≠ 0#32 → HandleAvailable s.cfg s.memory →
      OverCapacity s.cfg (s.memory.liveWords + (s.getReg c).toNat) → RaisesFault (.map b c) s .memoryExhausted)

/-- 43_halt_and_allocation.md R142, with its encoding, its frame and its fault. -/
def Obligations.UnmapReclaimsASegment : Prop :=
  DecodesStd 9 (fun _ _ c => .unmap c) ∧
  ∀ (c : Reg) (s : State),
    (s.getReg c ≠ 0#32 → (∃ g, s.memory.liveSeg (s.getReg c).toNat = some g) →
      ∃ t, exec (.unmap c) s = .next t ∧ t.memory.inPool (s.getReg c).toNat = true ∧
        t.memory.liveSeg (s.getReg c).toNat = none ∧ t.memory.hwm = s.memory.hwm ∧
        (∀ o, t.memory.read (s.getReg c) o = .error .segBadHandle) ∧
        SameStoreBut (s.getReg c).toNat s t ∧ SameRegsBut [] s t ∧ t.pc = s.pc + 1#32 ∧ SameRest s t) ∧
    (s.getReg c = 0#32 → RaisesFault (.unmap c) s .unmapInvalid) ∧
    (NotLive s.memory (s.getReg c).toNat → RaisesFault (.unmap c) s .unmapInvalid)

/-- 44_io.md R150, with its encoding and its fault. -/
def Obligations.OutDeliversOneByte : Prop :=
  DecodesStd 10 (fun _ _ c => .out c) ∧
  ∀ (c : Reg) (s : State),
    ((s.getReg c).toNat ≤ 255 → ∃ (t : State) (v : Byte), exec (.out c) s = .next t ∧ v.toNat = (s.getReg c).toNat ∧
      t.output = s.output ++ [v] ∧ SameRegsBut [] s t ∧ t.pc = s.pc + 1#32 ∧ SameStore s t ∧
      t.runState = s.runState ∧ t.input = s.input ∧ t.cfg = s.cfg) ∧
    (255 < (s.getReg c).toNat → RaisesFault (.out c) s .outputRange)

/-- 44_io.md R151, with its encoding: for every answer the host gives (10_state.md R38). The answers are the model's list
(log entry 7); with none the block holds (`InputHoldsUntilAnswered`). -/
def Obligations.InTakesTheHostsAnswer : Prop :=
  DecodesStd 11 (fun _ _ c => .inp c) ∧
  ∀ (c : Reg) (s : State) (r : InputResponse) (rest : List InputResponse), s.input = r :: rest →
    ∃ t, exec (.inp c) s = .next t ∧
      (∀ v, r = .byte v → (t.getReg c).toNat = v.toNat) ∧ (r = .endOfInput → t.getReg c = 0xFFFFFFFF#32) ∧
      t.input = rest ∧ SameRegsBut [c] s t ∧ t.pc = s.pc + 1#32 ∧ SameStore s t ∧
      t.runState = s.runState ∧ t.output = s.output ∧ t.cfg = s.cfg

/-- 40_execution_cycle.md R108: while the host has not answered, the step leaves the block RUNNING and unchanged, however
often it is tried; the host's answer lifts the wait. That a waiting step is a next state equal to the state before is
the model's choice (log entry 7). -/
def Obligations.InputHoldsUntilAnswered : Prop :=
  ∀ (s : State) (w : Word) (c : Reg), s.runState = .running → s.memory.read 0#32 s.pc = .ok w → decode w = .inp c →
    s.input = [] →
    s.awaitingInput = true ∧ (∀ n, Host.Core.run Sys2Proof.core n s = .next s) ∧
    ∀ r, ∃ t, step (s.hostAnswers r) = .next t ∧ t.pc = s.pc + 1#32 ∧ t.getReg c = r.value ∧ t.input = []

/-- 45_load_program_and_value.md R160, with its encoding, its frame and its faults in order. -/
def Obligations.LoadpCopiesThenJumps : Prop :=
  DecodesStd 12 (fun _ b c => .loadp b c) ∧
  ∀ (b c : Reg) (s : State),
    (s.getReg b = 0#32 → (s.getReg c).toNat < s.memory.progLen →
      ∃ t, exec (.loadp b c) s = .next t ∧ t.pc = s.getReg c ∧ SameStore s t ∧ SameRegsBut [] s t ∧ SameRest s t) ∧
    (s.getReg b = 0#32 → s.memory.progLen ≤ (s.getReg c).toNat → RaisesFault (.loadp b c) s .loadpBadTarget) ∧
    (s.getReg b ≠ 0#32 → NotLive s.memory (s.getReg b).toNat → RaisesFault (.loadp b c) s .loadpBadHandle) ∧
    ∀ g, s.getReg b ≠ 0#32 → s.memory.liveSeg (s.getReg b).toNat = some g →
      (OverCapacity s.cfg (s.memory.liveWords - s.memory.progLen + g.len) →
        RaisesFault (.loadp b c) s .memoryExhausted) ∧
      (FitsCapacity s.cfg (s.memory.liveWords - s.memory.progLen + g.len) →
        (g.len ≤ (s.getReg c).toNat → RaisesFault (.loadp b c) s .loadpBadTarget) ∧
        ((s.getReg c).toNat < g.len → ∃ t, exec (.loadp b c) s = .next t ∧ t.pc = s.getReg c ∧
          t.memory.liveSeg 0 = some g ∧ t.memory.progLen = g.len ∧
          (∀ o, t.memory.read 0#32 o = s.memory.read (s.getReg b) o) ∧ t.memory.hwm = s.memory.hwm ∧
          SameStoreBut 0 s t ∧ SameRegsBut [] s t ∧ SameRest s t))

/-- 45_load_program_and_value.md R161, with its encoding: for every immediate of 25 bits. -/
def Obligations.LvLoadsTheImmediate : Prop :=
  DecodesLv 13 .lv ∧
  ∀ (a : Reg) (imm : Nat) (s : State), imm ≤ 0x01FFFFFF → ∃ t, exec (.lv a imm) s = .next t ∧
    (t.getReg a).toNat = imm ∧ (∀ i, 25 ≤ i → (t.getReg a).getLsbD i = false) ∧ OnlyRegister a s t

/-- 30_encoding.md R91: the four pseudo-instructions do what their names say, and JMP's word without its precondition
replaces segment 0. -/
def Obligations.PseudoInstructionsWork : Prop :=
  decode 0x00000000#32 = .cmov 0 0 0 ∧
  (∀ s : State, ∃ t, exec (.cmov 0 0 0) s = .next t ∧ SameRegsBut [] s t ∧ t.pc = s.pc + 1#32 ∧ SameStore s t ∧
    SameRest s t) ∧
  (∀ (a b : Reg) (s : State), ∃ t, exec (.nand a b b) s = .next t ∧ t.getReg a = ~~~ s.getReg b) ∧
  (∀ (a b c : Reg) (s : State), ∃ t u, exec (.nand a b c) s = .next t ∧ exec (.nand a a a) t = .next u ∧
    u.getReg a = s.getReg b &&& s.getReg c ∧ SameRegsBut [a] s u) ∧
  (∀ (z c : Reg) (s : State), s.getReg z = 0#32 → (s.getReg c).toNat < s.memory.progLen →
    ∃ t, exec (.loadp z c) s = .next t ∧ t.pc = s.getReg c ∧ SameStore s t) ∧
  ∀ (z c : Reg) (s : State) (g : Segment), s.getReg z ≠ 0#32 → s.memory.liveSeg (s.getReg z).toNat = some g →
    FitsCapacity s.cfg (s.memory.liveWords - s.memory.progLen + g.len) → (s.getReg c).toNat < g.len →
    ∃ t, exec (.loadp z c) s = .next t ∧ t.pc = s.getReg c ∧ t.memory.liveSeg 0 = some g ∧
      ∀ o, t.memory.read 0#32 o = s.memory.read (s.getReg z) o

/-! ## The segment store -/

/-- 20_memory.md R48: a read's two faults, the handle's first, and its value. -/
def Obligations.MemReadChecksHandleThenOffset : Prop :=
  ∀ (m : Memory) (h o : Word),
    (NotLive m h.toNat → m.read h o = .error .segBadHandle) ∧
    (∀ g, m.liveSeg h.toNat = some g → g.len ≤ o.toNat → m.read h o = .error .segBadOffset) ∧
    ∀ g, m.liveSeg h.toNat = some g → o.toNat < g.len → m.read h o = .ok (g.read o.toNat)

/-- 20_memory.md R49: a write's two faults, and a read after it: the written word where it was written, and every other
address as before, its fault included; no length changes. -/
def Obligations.MemWriteReplacesOneWord : Prop :=
  ∀ (m : Memory) (h o v : Word), m.wf →
    (NotLive m h.toNat → m.write h o v = .error .segBadHandle) ∧
    (∀ g, m.liveSeg h.toNat = some g → g.len ≤ o.toNat → m.write h o v = .error .segBadOffset) ∧
    ∀ g, m.liveSeg h.toNat = some g → o.toNat < g.len → ∃ m', m.write h o v = .ok m' ∧ m'.hwm = m.hwm ∧
      (∀ h' o', m'.read h' o' = if h' = h ∧ o' = o then .ok v else m.read h' o') ∧
      ∀ k, (m'.liveSeg k).map Segment.len = (m.liveSeg k).map Segment.len

/-- 20_memory.md R50: how `live_words` is counted, an allocation's faults in their order, and its effect on every slot and
on `live_words`. -/
def Obligations.AllocateFollowsItsRule : Prop :=
  ∀ (cfg : Config) (m : Memory) (n : Word),
    m.liveWords = ((List.range m.hwm).map fun k => ((m.liveSeg k).map Segment.len).getD 0).sum ∧
    (n = 0#32 → m.allocate cfg n = .error .mapZeroLength) ∧
    (n ≠ 0#32 → ¬ HandleAvailable cfg m → m.allocate cfg n = .error .handleExhausted) ∧
    (n ≠ 0#32 → HandleAvailable cfg m → OverCapacity cfg (m.liveWords + n.toNat) →
      m.allocate cfg n = .error .memoryExhausted) ∧
    (n ≠ 0#32 → HandleAvailable cfg m → FitsCapacity cfg (m.liveWords + n.toNat) →
      ∃ h m', m.allocate cfg n = .ok (h, m') ∧
        (LowestInPool m h ∨ (PoolEmpty m ∧ h = m.hwm)) ∧
        m'.hwm = (if h = m.hwm then m.hwm + 1 else m.hwm) ∧ m'.inPool h = false ∧
        (∃ g, m'.liveSeg h = some g ∧ g.len = n.toNat ∧ ∀ o, g.read o = 0#32) ∧
        m'.liveWords = m.liveWords + n.toNat ∧
        ∀ k, k ≠ h → m'.liveSeg k = m.liveSeg k ∧ m'.inPool k = m.inPool k)

/-- 20_memory.md R51: every word of a newly allocated segment reads 0, also when its handle was used before. -/
def Obligations.NewSegmentsReadZero : Prop :=
  ∀ (cfg : Config) (m m' : Memory) (n h : Word), m.allocate cfg n = .ok (h.toNat, m') →
    ∀ o : Word, m'.read h o = if o.toNat < n.toNat then .ok 0#32 else .error .segBadOffset

/-- 20_memory.md R52: the lowest reclaimed handle is returned, `hwm` only when there is none; so after a free with no
lower reclaimed handle the next allocation returns the freed one. -/
def Obligations.LowestReclaimedHandleFirst : Prop :=
  ∀ (cfg : Config) (m : Memory),
    (∀ n h m', m.allocate cfg n = .ok (h, m') →
      (¬ PoolEmpty m → LowestInPool m h) ∧ (PoolEmpty m → h = m.hwm)) ∧
    ∀ (h n : Word) (m₁ m₂ : Memory) (k : Nat), m.free h = .ok m₁ → (∀ j, j < h.toNat → m.inPool j = false) →
      m₁.allocate cfg n = .ok (k, m₂) → k = h.toNat

/-- 20_memory.md R53: an allocation never returns 0, nor a live handle, and what it returns fits `MAX_SLOTS - 1` and so
a word. -/
def Obligations.AllocatedHandleIsFresh : Prop :=
  ∀ (s : State) (n : Word) (h : Nat) (m' : Memory), s.wf → s.memory.allocate s.cfg n = .ok (h, m') →
    h ≠ 0 ∧ s.memory.liveSeg h = none ∧ h ≤ s.cfg.maxSlots - 1 ∧ (BitVec.ofNat 32 h).toNat = h

/-- 20_memory.md R54: a free's three conditions of one fault, and its effect on every slot and on `live_words` (R50). -/
def Obligations.FreeFollowsItsRule : Prop :=
  ∀ (m : Memory) (h : Word),
    (h = 0#32 → m.free h = .error .unmapInvalid) ∧ (m.hwm ≤ h.toNat → m.free h = .error .unmapInvalid) ∧
    (m.inPool h.toNat = true → m.free h = .error .unmapInvalid) ∧
    ∀ g, h ≠ 0#32 → m.liveSeg h.toNat = some g → ∃ m', m.free h = .ok m' ∧ m'.hwm = m.hwm ∧
      m'.inPool h.toNat = true ∧ m'.liveWords + g.len = m.liveWords ∧
      ∀ k, k ≠ h.toNat → m'.liveSeg k = m.liveSeg k ∧ m'.inPool k = m.inPool k

/-- 20_memory.md R55: after a free every access through the handle faults, a second free too; once an allocation reuses
it, the handle reads the new segment, all 0. -/
def Obligations.FreedContentsAreGone : Prop :=
  ∀ (cfg : Config) (m m₁ : Memory) (h : Word), m.free h = .ok m₁ →
    (∀ o v, m₁.read h o = .error .segBadHandle ∧ m₁.write h o v = .error .segBadHandle) ∧
    m₁.free h = .error .unmapInvalid ∧
    ∀ (n : Word) (m₂ : Memory), m₁.allocate cfg n = .ok (h.toNat, m₂) →
      ∀ o : Word, o.toNat < n.toNat → m₂.read h o = .ok 0#32

/-- 20_memory.md R56: the copy into segment 0, its fault, its capacity test and its effect on `live_words` (R50). -/
def Obligations.DupIntoZeroFollowsItsRule : Prop :=
  ∀ (cfg : Config) (m : Memory) (h : Word),
    (h = 0#32 → m.dupIntoZero cfg h = .ok m) ∧
    (h ≠ 0#32 → NotLive m h.toNat → m.dupIntoZero cfg h = .error .loadpBadHandle) ∧
    ∀ g, h ≠ 0#32 → m.liveSeg h.toNat = some g →
      (OverCapacity cfg (m.liveWords - m.progLen + g.len) → m.dupIntoZero cfg h = .error .memoryExhausted) ∧
      (FitsCapacity cfg (m.liveWords - m.progLen + g.len) → ∃ m', m.dupIntoZero cfg h = .ok m' ∧
        m'.hwm = m.hwm ∧ m'.progLen = g.len ∧ (∀ o, m'.read 0#32 o = m.read h o) ∧
        m'.liveWords + m.progLen = m.liveWords + g.len ∧
        ∀ k, k ≠ 0 → m'.liveSeg k = m.liveSeg k ∧ m'.inPool k = m.inPool k)

/-- 20_memory.md R57: after the copy, a write through either handle is not seen through the other. -/
def Obligations.CopiedSegmentsAreIndependent : Prop :=
  ∀ (cfg : Config) (m m₁ m₂ : Memory) (h : Word), m.wf → h ≠ 0#32 → m.dupIntoZero cfg h = .ok m₁ →
    (∀ o v, m₁.write h o v = .ok m₂ → ∀ p, m₂.read 0#32 p = m.read h p) ∧
    ∀ o v, m₁.write 0#32 o v = .ok m₂ → ∀ p, m₂.read h p = m.read h p

/-- 20_memory.md R58: an allocation or a copy raises MEMORY_EXHAUSTED only over a finite capacity, and no step makes the
live words exceed it. -/
def Obligations.StepsKeepWithinCapacity : Prop :=
  (∀ (s t : State), s.wf → s.withinCapacity → step s = .next t → t.withinCapacity) ∧
  ∀ (s t : State) (p w : Word), step s = .next t → t.runState = .faulted .memoryExhausted p w →
    s.runState = .running ∧ ∃ cap, s.cfg.memCapacity = some cap

/-- 10_state.md R31 to R33: no step lowers `hwm`, takes segment 0's liveness away, or changes the length of a segment
other than 0 that is live before and after it; a handle is never live and reclaimed at once. -/
def Obligations.StepsRespectSlotLifetimes : Prop :=
  ∀ s t : State, s.wf → step s = .next t →
    s.memory.hwm ≤ t.memory.hwm ∧ (∃ g, t.memory.liveSeg 0 = some g) ∧
    (∀ k g g', k ≠ 0 → s.memory.liveSeg k = some g → t.memory.liveSeg k = some g' → g'.len = g.len) ∧
    ∀ k, k < t.memory.hwm → ((∃ g, t.memory.liveSeg k = some g) ↔ t.memory.inPool k = false)

/-- 20_memory.md R67: a store into segment 0 at the next offset is what the very next step runs. -/
def Obligations.StoreIsFetchedByTheNextStep : Prop :=
  ∀ (s : State) (w : Word) (a b c : Reg), s.wf → s.runState = .running → s.memory.read 0#32 s.pc = .ok w →
    decode w = .sstore a b c → s.getReg a = 0#32 → s.getReg b = s.pc + 1#32 →
    (s.pc + 1#32).toNat < s.memory.progLen →
    ∃ t, step s = .next t ∧ step t = exec (decode (s.getReg c)) t

/-! ## The whole machine -/

/-- Every step keeps the invariant: the store's form (20_memory.md, 10_state.md R30 to R33), the parameters' range, `hwm`
within `MAX_SLOTS`, and `pc ≤ SegLen(0)`. -/
def Obligations.StepKeepsTheInvariant : Prop := ∀ s t : State, s.wf → step s = .next t → t.wf

/-- The reset state meets the invariant. -/
def Obligations.ResetMeetsTheInvariant : Prop := State.reset.wf

/-- In every state of every run, from any image under any parameters, with any answers of the host and any resets, the
invariant holds and segment 0 has a word. -/
def Obligations.ReachableStatesMeetTheInvariant : Prop := ∀ s : State, Reachable s → s.wf ∧ s.booted

/-- 70_reset_and_hazards.md R200 and R202: the state after a boot of `image`, item by item; `w_i` stands at offset `i`. The
bound on the image's length is 10_state.md R33's. That an image larger than a finite `MEM_CAPACITY` is booted all the
same is the model's choice (log entry 13), and so is the empty list of answers (log entry 7). -/
def Obligations.BootLeavesTheResetState : Prop :=
  ∀ (cfg : Config) (image : List Word), image ≠ [] → image.length ≤ 4294967295 →
    ∃ s, State.boot cfg image = .next s ∧ HasResetValues cfg image s

/-- 70_reset_and_hazards.md R200 with 00_scope.md R5: the reset state's registers, `pc`, run state, `hwm` and pool. The
registers' 0 is the spec's own decision D2 (log entry 3). -/
def Obligations.ResetValues : Prop :=
  (∀ r : Reg, State.reset.getReg r = 0#32) ∧ State.reset.pc = 0#32 ∧ State.reset.runState = .running ∧
  State.reset.memory.hwm = 1 ∧ PoolEmpty State.reset.memory ∧ State.reset.output = []

/-- 10_state.md R41: from every state, whatever its run state, reset with a new image puts every piece of state into the
value of R200, exactly as a boot of that image does, an image that is none included. That the parameters are kept is the
model's choice (log entries 5 and 15); an image over a finite `MEM_CAPACITY` is as for a boot (log entry 13). -/
def Obligations.ResetForgetsTheRun : Prop :=
  ∀ (s : State) (image : List Word), s.assertReset image = State.boot s.cfg image ∧
    (image = [] → s.assertReset image = .refused .emptyImage) ∧
    (image ≠ [] → image.length ≤ 4294967295 → ∃ t, s.assertReset image = .next t ∧ HasResetValues s.cfg image t)

/-- 70_reset_and_hazards.md R203: image words are big-endian groups of four file bytes. That a length that is no multiple of
4 gives no words is the model's choice (log entry 22): the spec puts it outside the block (D20, I13). -/
def Obligations.ImageBytesAreBigEndian : Prop :=
  ∀ bytes : List Byte,
    ((imageOfBytes bytes).isSome = true ↔ bytes.length % 4 = 0) ∧
    ∀ ws, imageOfBytes bytes = some ws → ws.length * 4 = bytes.length ∧
      ∀ i, i < ws.length → (ws.getD i 0#32).toNat =
        (bytes.getD (4 * i) 0#8).toNat * 2 ^ 24 + (bytes.getD (4 * i + 1) 0#8).toNat * 2 ^ 16 +
        (bytes.getD (4 * i + 2) 0#8).toNat * 2 ^ 8 + (bytes.getD (4 * i + 3) 0#8).toNat

/-- 60_exceptions.md R175 and 40_execution_cycle.md R106: a step that ends in FAULTED leaves the state before it with only
the run state replaced by the kind, the instruction's offset and its word; no further step follows, and the exit
status is not 0. -/
def Obligations.FaultsArePreciseAndTerminal : Prop :=
  ∀ (s t : State) (k : FaultKind) (p w : Word), step s = .next t → t.runState = .faulted k p w →
    t = s.faultedBy k w ∧ p = s.pc ∧ s.memory.read 0#32 s.pc = .ok w ∧ step t = .fault .runFaulted ∧
    t.exitStatus = some Config.exitFault ∧ Config.exitFault ≠ 0#32

/-- 60_exceptions.md R170: a fault kind is raised only by the instructions of its row, and the codes are 1 to 11 in the
order of the rule's table. The condition of each row is in the statement of its instruction. -/
def Obligations.FaultKindsComeFromTheirInstructions : Prop :=
  (∀ (s t : State) (k : FaultKind) (p w : Word), step s = .next t → t.runState = .faulted k p w →
    raisedBy k (decode w) = true) ∧
  [FaultKind.invalidOpcode, .divideByZero, .segBadHandle, .segBadOffset, .mapZeroLength, .handleExhausted,
    .memoryExhausted, .unmapInvalid, .outputRange, .loadpBadHandle, .loadpBadTarget].map FaultKind.code =
    [1, 2, 3, 4, 5, 6, 7, 8, 9, 10, 11]

/-- 10_state.md R21: no instruction changes a register other than its destination. -/
def Obligations.OnlyTheDestinationRegisterChanges : Prop :=
  ∀ (i : Instr) (s t : State) (r : Reg), exec i s = .next t → destReg i ≠ some r → t.getReg r = s.getReg r

/-- 20_memory.md R46: no instruction but segment-store, map, unmap and load-program changes the store. -/
def Obligations.OnlyFourInstructionsChangeTheStore : Prop :=
  ∀ (i : Instr) (s t : State), exec i s = .next t → changesStore i = false → SameStore s t

/-- 10_state.md R24: a step adds 1 to `pc` without a wrap, or is a load-program and puts `x[c]` there, or leaves `pc` where it
was: at the end of the program (R101), in a fault (R106), or while the block holds for input (R108). That the hold is a
step, whose next state is the state before it, is the model's choice (log entry 7). -/
def Obligations.ProgramCounterChangesInTwoWays : Prop :=
  ∀ s t : State, s.wf → step s = .next t →
    (t.pc = s.pc ∧ (t.runState ≠ .running ∨ s.awaitingInput = true)) ∨
    t.pc.toNat = s.pc.toNat + 1 ∨
    ∃ w b c, s.memory.read 0#32 s.pc = .ok w ∧ decode w = .loadp b c ∧ t.pc = s.getReg c

/-- 10_state.md R38, R39: an instruction delivers a byte only if it is an output instruction, and then one, the value of
its register, and consumes an answer only if it is an input instruction, and then the oldest; none changes the
parameters. -/
def Obligations.ChannelsAreReachedOnlyByOutAndIn : Prop :=
  ∀ (i : Instr) (s t : State), exec i s = .next t →
    (t.output = s.output ∨ ∃ c v, i = .out c ∧ t.output = s.output ++ [v] ∧ v.toNat = (s.getReg c).toNat) ∧
    (t.input = s.input ∨ ∃ c r, i = .inp c ∧ s.input = r :: t.input) ∧ t.cfg = s.cfg

/-- 10_state.md R35: the output stream's position is no state of the block, so what has been delivered changes nothing a
step does but the record it extends. -/
def Obligations.DeliveredBytesAreNotRead : Prop :=
  ∀ (s t : State) (before : List Byte), step s = .next t →
    step { s with output := before ++ s.output } = .next { t with output := before ++ t.output }

/-- 10_state.md R38, D14: answers the host gives later change nothing a step does that has an answer, or needs none. -/
def Obligations.LaterAnswersAreNotRead : Prop :=
  ∀ (s t : State) (later : List InputResponse), step s = .next t → s.awaitingInput = false →
    step { s with input := s.input ++ later } = .next { t with input := t.input ++ later }

/-- 40_execution_cycle.md R110: a load-program with handle 0 to its own offset runs forever. -/
def Obligations.SelfJumpRunsForever : Prop :=
  ∀ (s : State) (w : Word) (b c : Reg), s.runState = .running → s.memory.read 0#32 s.pc = .ok w →
    decode w = .loadp b c → s.getReg b = 0#32 → s.getReg c = s.pc →
    ∀ n, Host.Core.run Sys2Proof.core n s = .next s

/-- 10_state.md R40: the exit status of each run state. -/
def Obligations.ExitStatusFollowsTheRunState : Prop :=
  ∀ s : State, (s.runState = .running → s.exitStatus = none) ∧
    (∀ c, s.runState = .halted c → s.exitStatus = some 0#32) ∧
    (∀ k p w, s.runState = .faulted k p w → s.exitStatus = some Config.exitFault) ∧ Config.exitFault ≠ 0#32

/-- 40_execution_cycle.md R109: a run ends exactly by a halt instruction, the end of segment 0, or a fault. -/
def Obligations.RunEndsOnlyInThreeWays : Prop :=
  ∀ s t : State, step s = .next t → t.runState ≠ .running →
    (t.runState = .halted .haltInstruction ∧ ∃ w, s.memory.read 0#32 s.pc = .ok w ∧ decode w = .halt) ∨
    (t.runState = .halted .endOfProgram ∧ s.memory.progLen ≤ s.pc.toNat) ∨
    ∃ k p w, t.runState = .faulted k p w

/-- The machine's invariant with a booted program (10_state.md R24, R30, R32, R33): a boot under parameters in range gives a
state that meets both, and every step from a state that meets both gives one that does, so that no run comes to a
segment 0 of no words. -/
def Obligations.StepKeepsTheBootedInvariant : Prop :=
  (∀ (cfg : Config) (image : List Word) (s : State), cfg.wf → State.boot cfg image = .next s → s.wf ∧ s.booted) ∧
  ∀ s t : State, s.wf → s.booted → step s = .next t → t.wf ∧ t.booted
end

