-- ==== Sys2Proof/Laws/PerInstr.lean ====
section
/-! SUPPORT. A family of one lemma per instruction: the opcode nibble of an instruction's word is the numeral the opcode
map gives it (30_encoding.md R83, R88, R89). -/

namespace Sys2Proof.Laws

/-- The numeral of an instruction's opcode: the one table's entry, 14 or 15 for the two unassigned rows. -/
def opcodeOf : Instr → Nat
  | .cmov _ _ _ => Op.cmov.code
  | .sload _ _ _ => Op.sload.code
  | .sstore _ _ _ => Op.sstore.code
  | .add _ _ _ => Op.add.code
  | .mul _ _ _ => Op.mul.code
  | .div _ _ _ => Op.div.code
  | .nand _ _ _ => Op.nand.code
  | .halt => Op.halt.code
  | .map _ _ => Op.map.code
  | .unmap _ => Op.unmap.code
  | .out _ => Op.out.code
  | .inp _ => Op.inp.code
  | .loadp _ _ => Op.loadp.code
  | .lv _ _ => Op.lv.code
  | .invalid14 _ => 14
  | .invalid15 _ => 15

/-- The table is one to one: a numeral found in it is its opcode's. -/
theorem ofCode_code (o : Op) : Op.ofCode o.code = some o := by cases o <;> decide

theorem code_lt (o : Op) : o.code < 14 := by cases o <;> decide

theorem ofCode_eq_none {n : Nat} (h : 14 ≤ n) : Op.ofCode n = none := by
  simp only [Op.ofCode, List.find?_eq_none]
  intro o _
  have := code_lt o
  simp only [beq_iff_eq]
  omega

/-- The fields of a standard word (30_encoding.md R81, R92). -/
theorem encStd_toNat (o : Op) {a b c : Nat} (ha : a < 8) (hb : b < 8) (hc : c < 8) :
    (encStd o a b c).toNat = o.code * 268435456 + a * 64 + b * 8 + c := by
  have := code_lt o
  simp only [encStd, BitVec.toNat_ofNat]
  omega

theorem encLv_toNat {a imm : Nat} (ha : a < 8) (hi : imm < immBound) :
    (encLv a imm).toNat = 3489660928 + a * 33554432 + imm := by
  simp only [encLv, BitVec.toNat_ofNat, Op.code, immBound] at *
  omega

theorem encInvalid_toNat {n : Nat} (hn : n < 16) (p : BitVec 28) :
    (encInvalid n p).toNat = n * 268435456 + p.toNat := by
  have := p.isLt
  simp only [encInvalid, BitVec.toNat_ofNat]
  omega

namespace OpcodeField

def Statement (i : Instr) : Prop := i.WellFormed → bits (encode i) 31 28 = opcodeOf i

theorem std (o : Op) (a b c : Reg) : bits (encStd o a b c) 31 28 = o.code := by
  have := code_lt o
  have := a.isLt
  have := b.isLt
  have := c.isLt
  simp only [bits, encStd_toNat o a.isLt b.isLt c.isLt]
  omega

theorem std0 (o : Op) (b c : Reg) : bits (encStd o 0 b c) 31 28 = o.code := std o 0 b c

theorem std00 (o : Op) (c : Reg) : bits (encStd o 0 0 c) 31 28 = o.code := std o 0 0 c

theorem invalid {n : Nat} (hn : n < 16) (p : BitVec 28) : bits (encInvalid n p) 31 28 = n := by
  have := p.isLt
  simp only [bits, encInvalid_toNat hn]
  omega

theorem cmov (a b c : Reg) : Statement (.cmov a b c) := fun _ => std .cmov a b c
theorem sload (a b c : Reg) : Statement (.sload a b c) := fun _ => std .sload a b c
theorem sstore (a b c : Reg) : Statement (.sstore a b c) := fun _ => std .sstore a b c
theorem add (a b c : Reg) : Statement (.add a b c) := fun _ => std .add a b c
theorem mul (a b c : Reg) : Statement (.mul a b c) := fun _ => std .mul a b c
theorem div (a b c : Reg) : Statement (.div a b c) := fun _ => std .div a b c
theorem nand (a b c : Reg) : Statement (.nand a b c) := fun _ => std .nand a b c
theorem halt : Statement .halt := fun _ => std .halt 0 0 0
theorem map (b c : Reg) : Statement (.map b c) := fun _ => std0 .map b c
theorem unmap (c : Reg) : Statement (.unmap c) := fun _ => std00 .unmap c
theorem out (c : Reg) : Statement (.out c) := fun _ => std00 .out c
theorem inp (c : Reg) : Statement (.inp c) := fun _ => std00 .inp c
theorem loadp (b c : Reg) : Statement (.loadp b c) := fun _ => std0 .loadp b c
theorem lv (a : Reg) (imm : Nat) : Statement (.lv a imm) := fun h => by
  have hi : imm < immBound := of_decide_eq_true h
  have := a.isLt
  have hn := encLv_toNat a.isLt hi
  simp only [immBound] at hi
  simp only [encode, bits, hn, opcodeOf, Op.code]
  omega
theorem invalid14 (p : BitVec 28) : Statement (.invalid14 p) := fun _ => invalid (by decide) p
theorem invalid15 (p : BitVec 28) : Statement (.invalid15 p) := fun _ => invalid (by decide) p

end OpcodeField

end Sys2Proof.Laws
end

