-- ==== Sys2Proof/Laws/Decode.lean ====
section
/-! SUPPORT. The decoder's small lemmas: a field is a quotient's remainder, the opcodes are sixteen, the fields of an
encoded word are its operands, and clearing ignored bits is arithmetic. -/

namespace Sys2Proof.Laws

/-- A selector is the number in its three bits. -/
theorem regSel_eq {w : Word} {lo : Nat} {r : Reg} (h : w.toNat / 2 ^ lo % 8 = r.val) : regSel w lo = r := Fin.ext h

theorem ofCode_of_bits {o : Op} {w : Word} (h : bits w 31 28 = o.code) : Op.ofCode (bits w 31 28) = some o := by
  rw [h, ofCode_code]

/-- The opcode nibble is an entry of the map, 14 or 15 (30_encoding.md R88). -/
theorem opcode_cases (w : Word) : (∃ o : Op, bits w 31 28 = o.code) ∨ bits w 31 28 = 14 ∨ bits w 31 28 = 15 := by
  have : bits w 31 28 < 16 := Nat.mod_lt _ (by decide)
  have key : ∀ n, n < 14 → ∃ o : Op, n = o.code := by
    intro n hn
    have h : ∀ n : Fin 14, ∃ o ∈ Op.all, n.val = o.code := by decide
    obtain ⟨o, -, ho⟩ := h ⟨n, hn⟩
    exact ⟨o, ho⟩
  by_cases h : bits w 31 28 < 14
  · exact .inl (key _ h)
  · omega

/-! The decoding of a word by its opcode, stated of a word that is a variable: rewriting with these, and not unfolding
`decode` at an encoded word, keeps the kernel from evaluating the word's arithmetic. -/

section
variable {w : Word}

theorem decode_cmov (h : bits w 31 28 = Op.cmov.code) : decode w = .cmov (selA w) (selB w) (selC w) := by
  simp only [decode, ofCode_of_bits h]

theorem decode_sload (h : bits w 31 28 = Op.sload.code) : decode w = .sload (selA w) (selB w) (selC w) := by
  simp only [decode, ofCode_of_bits h]

theorem decode_sstore (h : bits w 31 28 = Op.sstore.code) : decode w = .sstore (selA w) (selB w) (selC w) := by
  simp only [decode, ofCode_of_bits h]

theorem decode_add (h : bits w 31 28 = Op.add.code) : decode w = .add (selA w) (selB w) (selC w) := by
  simp only [decode, ofCode_of_bits h]

theorem decode_mul (h : bits w 31 28 = Op.mul.code) : decode w = .mul (selA w) (selB w) (selC w) := by
  simp only [decode, ofCode_of_bits h]

theorem decode_div (h : bits w 31 28 = Op.div.code) : decode w = .div (selA w) (selB w) (selC w) := by
  simp only [decode, ofCode_of_bits h]

theorem decode_nand (h : bits w 31 28 = Op.nand.code) : decode w = .nand (selA w) (selB w) (selC w) := by
  simp only [decode, ofCode_of_bits h]

theorem decode_halt (h : bits w 31 28 = Op.halt.code) : decode w = .halt := by
  simp only [decode, ofCode_of_bits h]

theorem decode_map (h : bits w 31 28 = Op.map.code) : decode w = .map (selB w) (selC w) := by
  simp only [decode, ofCode_of_bits h]

theorem decode_unmap (h : bits w 31 28 = Op.unmap.code) : decode w = .unmap (selC w) := by
  simp only [decode, ofCode_of_bits h]

theorem decode_out (h : bits w 31 28 = Op.out.code) : decode w = .out (selC w) := by
  simp only [decode, ofCode_of_bits h]

theorem decode_inp (h : bits w 31 28 = Op.inp.code) : decode w = .inp (selC w) := by
  simp only [decode, ofCode_of_bits h]

theorem decode_loadp (h : bits w 31 28 = Op.loadp.code) : decode w = .loadp (selB w) (selC w) := by
  simp only [decode, ofCode_of_bits h]

theorem decode_lv (h : bits w 31 28 = Op.lv.code) : decode w = .lv (selLv w) (bits w 24 0) := by
  simp only [decode, ofCode_of_bits h]

theorem decode_invalid14 (h : bits w 31 28 = 14) : decode w = .invalid14 (payload w) := by
  simp only [decode, h, ofCode_eq_none (n := 14) (by decide), if_true]

theorem decode_invalid15 (h : bits w 31 28 = 15) : decode w = .invalid15 (payload w) := by
  simp only [decode, h, ofCode_eq_none (n := 15) (by decide), show ¬ ((15 : Nat) = 14) by decide, if_false]

end

/-- The selectors of a standard word are its operands (30_encoding.md R81, R92). -/
theorem sel_encStd (o : Op) (a b c : Reg) :
    selA (encStd o a b c) = a ∧ selB (encStd o a b c) = b ∧ selC (encStd o a b c) = c := by
  have h := encStd_toNat o a.isLt b.isLt c.isLt
  have := a.isLt
  have := b.isLt
  have := c.isLt
  refine ⟨regSel_eq ?_, regSel_eq ?_, regSel_eq ?_⟩ <;> rw [h] <;> omega

/-- The fields of a load-value word are its operands (30_encoding.md R82, R92). -/
theorem selLv_encLv (a : Reg) {imm : Nat} (hi : imm < immBound) : selLv (encLv a imm) = a := by
  have h := encLv_toNat a.isLt hi
  have := a.isLt
  simp only [immBound] at hi
  refine regSel_eq ?_
  rw [h]
  omega

theorem imm_encLv (a : Reg) {imm : Nat} (hi : imm < immBound) : bits (encLv a imm) 24 0 = imm := by
  have h := encLv_toNat a.isLt hi
  have := a.isLt
  simp only [immBound] at hi
  unfold bits
  rw [h]
  omega

/-- An invalid word's other 28 bits are its payload (30_encoding.md R89). -/
theorem payload_encInvalid {n : Nat} (hn : n < 16) (p : BitVec 28) : payload (encInvalid n p) = p := by
  have h := encInvalid_toNat hn p
  have := p.isLt
  apply BitVec.eq_of_toNat_eq
  unfold payload bits
  rw [h, BitVec.toNat_ofNat]
  omega

/-- The mask of the opcode nibble holds its bits 31:28 and no other. -/
theorem nibbleMask_getElem : ∀ i : Fin 32, (4026531840#32)[i] = decide (28 ≤ i.val) := by decide

/-- Keeping the opcode nibble and the low `k` bits of a word, as arithmetic. -/
theorem and_mask_toNat (w : Word) {k : Nat} (hk : k ≤ 28) {m : Word}
    (hm : m = BitVec.ofNat 32 (15 * 2 ^ 28) ||| BitVec.ofNat 32 (2 ^ k - 1)) :
    (w &&& m).toNat = w.toNat / 2 ^ 28 * 2 ^ 28 + w.toNat % 2 ^ k := by
  have hp : 2 ^ k ≤ 2 ^ 28 := Nat.pow_le_pow_right (by decide) hk
  have hlow : (w &&& BitVec.ofNat 32 (2 ^ k - 1)).toNat = w.toNat % 2 ^ k := by
    rw [BitVec.toNat_and, BitVec.toNat_ofNat, Nat.mod_eq_of_lt (by omega), Nat.and_two_pow_sub_one_eq_mod]
  have hnib : w &&& BitVec.ofNat 32 (15 * 2 ^ 28) = (w >>> 28) <<< 28 := by
    ext i hi
    have hi' := nibbleMask_getElem ⟨i, hi⟩
    simp only [Fin.getElem_fin] at hi'
    by_cases h : 28 ≤ i
    · simp [BitVec.getElem_ushiftRight, hi', h, Nat.not_lt.mpr h, BitVec.getLsbD_eq_getElem hi]
    · simp [hi', h, Nat.lt_of_not_le h]
  have hhigh : (w &&& BitVec.ofNat 32 (15 * 2 ^ 28)).toNat = w.toNat / 2 ^ 28 * 2 ^ 28 := by
    have := w.isLt
    rw [hnib, BitVec.toNat_shiftLeft, BitVec.toNat_ushiftRight, Nat.shiftRight_eq_div_pow, Nat.shiftLeft_eq]
    exact Nat.mod_eq_of_lt (by omega)
  have hlt : w.toNat % 2 ^ k < 2 ^ 28 := (Nat.mod_lt _ (by positivity)).trans_le hp
  rw [hm, BitVec.and_or_distrib_left, BitVec.toNat_or, hhigh, hlow, ← Nat.shiftLeft_eq,
    ← Nat.shiftLeft_add_eq_or_of_lt hlt]

end Sys2Proof.Laws
end

