-- ==== Sys2Proof/Laws/Segment.lean ====
section
/-! SUPPORT. The words of one segment: a read after a write, the canonical form is kept, and canonical lists with the
same reads are the same list, so that equal segments are equal data. -/

namespace Sys2Proof.Machine

namespace Cells

/-- The offsets of a list strictly rise. -/
abbrev Sorted (cs : Cells) : Prop := cs.Pairwise (fun p q => p.1 < q.1)

theorem read_eq_zero_of_forall {cs : Cells} {o : Nat} (h : ∀ p ∈ cs, p.1 ≠ o) : Cells.read cs o = 0#32 := by
  induction cs with
  | nil => rfl
  | cons p cs ih =>
    obtain ⟨k, x⟩ := p
    have hk : k ≠ o := h (k, x) (by simp)
    simp only [Cells.read, hk, if_false]
    exact ih fun q hq => h q (by simp [hq])

theorem read_of_lt_all {cs : Cells} {o : Nat} (h : ∀ p ∈ cs, o < p.1) : Cells.read cs o = 0#32 :=
  read_eq_zero_of_forall fun p hp => (h p hp).ne'

/-- The word written is read back, and every other offset reads as before (20_memory.md R49, R65). -/
theorem read_write {cs : Cells} (hs : Sorted cs) (o : Nat) (v : Word) (q : Nat) :
    Cells.read (Cells.write cs o v) q = if q = o then v else Cells.read cs q := by
  induction cs with
  | nil => by_cases hv : v = 0#32 <;> by_cases hq : q = o <;> simp [Cells.write, Cells.read, hv, hq, eq_comm (a := o)]
  | cons p cs ih =>
    obtain ⟨k, x⟩ := p
    obtain ⟨hk, hs'⟩ := List.pairwise_cons.mp hs
    have hz : ∀ r, r ≤ k → Cells.read cs r = 0 := fun r hr => read_of_lt_all fun p hp => by
      have := hk p hp; simp only at this; omega
    unfold Cells.write
    by_cases h1 : o < k
    · rw [if_pos h1]
      by_cases hv : v = 0#32
      · by_cases hq : q = o
        · have := hz o (by omega)
          simp [hv, hq, Cells.read, this, show k ≠ o by omega]
        · simp [hv, hq]
      · by_cases hq : q = o
        · simp [hv, hq, Cells.read]
        · simp [hv, hq, Cells.read, Ne.symm hq]
    · rw [if_neg h1]
      by_cases h2 : o = k
      · subst h2
        by_cases hv : v = 0#32
        · by_cases hq : q = o
          · simp [hv, hq, hz o]
          · simp [hv, hq, Cells.read, Ne.symm hq]
        · by_cases hq : q = o
          · simp [hv, hq, Cells.read]
          · simp [hv, hq, Cells.read, Ne.symm hq]
      · rw [if_neg h2]
        by_cases hq : q = k
        · subst hq; simp [Cells.read, Ne.symm h2]
        · simp only [Cells.read, Ne.symm hq, if_false]; exact ih hs'

theorem mem_write {cs : Cells} {o : Nat} {v : Word} {p : Nat × Word} (h : p ∈ Cells.write cs o v) :
    p ∈ cs ∨ (p = (o, v) ∧ v ≠ 0#32) := by
  induction cs with
  | nil => by_cases hv : v = 0#32 <;> simp_all [Cells.write]
  | cons q cs ih =>
    obtain ⟨k, x⟩ := q
    by_cases hv : v = 0#32 <;> by_cases h1 : o < k <;> by_cases h2 : o = k <;>
      simp only [Cells.write, hv, h1, h2, if_true, if_false, List.mem_cons] at h ⊢ <;> grind

theorem sorted_write {cs : Cells} (hs : Sorted cs) (o : Nat) (v : Word) : Sorted (Cells.write cs o v) := by
  induction cs with
  | nil => by_cases hv : v = 0#32 <;> simp [Cells.write, Sorted, hv]
  | cons q cs ih =>
    obtain ⟨k, x⟩ := q
    obtain ⟨hk, hs'⟩ := List.pairwise_cons.mp hs
    unfold Cells.write
    by_cases h1 : o < k
    · rw [if_pos h1]
      by_cases hv : v = 0#32
      · rw [if_pos hv]; exact hs
      · rw [if_neg hv]
        refine List.pairwise_cons.mpr ⟨fun p hp => ?_, hs⟩
        rcases List.mem_cons.mp hp with rfl | hp
        · exact h1
        · exact h1.trans (hk p hp)
    · rw [if_neg h1]
      by_cases h2 : o = k
      · subst h2
        by_cases hv : v = 0#32
        · simpa [hv] using hs'
        · rw [if_pos rfl, if_neg hv]; exact List.pairwise_cons.mpr ⟨hk, hs'⟩
      · rw [if_neg h2]
        refine List.pairwise_cons.mpr ⟨fun p hp => ?_, ih hs'⟩
        rcases mem_write hp with hp | ⟨rfl, -⟩
        · exact hk p hp
        · simp only; omega

/-- A write keeps the canonical form. -/
theorem wf_write {cs : Cells} {len o : Nat} (h : Cells.wf len cs) (ho : o < len) (v : Word) :
    Cells.wf len (Cells.write cs o v) := by
  refine ⟨sorted_write h.1 o v, fun p hp => ?_⟩
  rcases mem_write hp with hp | ⟨rfl, hv⟩
  · exact h.2 p hp
  · exact ⟨ho, hv⟩

/-- Two canonical lists that read the same everywhere are the same list. -/
theorem ext_of_read {cs ds : Cells} (hc : Sorted cs) (hd : Sorted ds) (hcz : ∀ p ∈ cs, p.2 ≠ 0#32)
    (hdz : ∀ p ∈ ds, p.2 ≠ 0#32) (h : ∀ o, Cells.read cs o = Cells.read ds o) : cs = ds := by
  induction cs generalizing ds with
  | nil =>
    cases ds with
    | nil => rfl
    | cons q ds =>
      exact absurd (by simpa [Cells.read] using (h q.1).symm) (hdz q (by simp))
  | cons p cs ih =>
    obtain ⟨k, x⟩ := p
    obtain ⟨hk, hc'⟩ := List.pairwise_cons.mp hc
    cases ds with
    | nil => exact absurd (by simpa [Cells.read] using h k) (hcz (k, x) (by simp))
    | cons q ds =>
      obtain ⟨j, y⟩ := q
      obtain ⟨hj, hd'⟩ := List.pairwise_cons.mp hd
      have hx : x ≠ 0#32 := hcz (k, x) (by simp)
      have hy : y ≠ 0#32 := hdz (j, y) (by simp)
      have hkj : k = j := by
        rcases Nat.lt_trichotomy k j with hlt | heq | hgt
        · have := h k
          rw [read_of_lt_all (cs := (j, y) :: ds) (o := k)] at this
          · simp only [Cells.read, if_true] at this; exact absurd this hx
          · intro p hp
            rcases List.mem_cons.mp hp with rfl | hp
            · exact hlt
            · exact hlt.trans (hj p hp)
        · exact heq
        · have := h j
          rw [read_of_lt_all (cs := (k, x) :: cs) (o := j)] at this
          · simp only [Cells.read, if_true] at this; exact absurd this.symm hy
          · intro p hp
            rcases List.mem_cons.mp hp with rfl | hp
            · exact hgt
            · exact hgt.trans (hk p hp)
      subst hkj
      have hxy : x = y := by simpa [Cells.read] using h k
      subst hxy
      rw [ih hc' hd' (fun p hp => hcz p (by simp [hp])) (fun p hp => hdz p (by simp [hp])) fun o => ?_]
      by_cases ho : o = k
      · subst ho; rw [read_of_lt_all hk, read_of_lt_all hj]
      · simpa [Cells.read, Ne.symm ho] using h o

theorem mem_ofWords {ws : List Word} {n : Nat} {p : Nat × Word} (h : p ∈ Cells.ofWords n ws) :
    n ≤ p.1 ∧ p.1 < n + ws.length ∧ p.2 ≠ 0#32 := by
  induction ws generalizing n with
  | nil => simp [Cells.ofWords] at h
  | cons w ws ih =>
    simp only [Cells.ofWords] at h
    split at h
    · have := ih h; simp only [List.length_cons]; exact ⟨by omega, by omega, this.2.2⟩
    · rcases List.mem_cons.mp h with rfl | h
      · simp only [List.length_cons]; exact ⟨le_refl _, by omega, ‹_›⟩
      · have := ih h; simp only [List.length_cons]; exact ⟨by omega, by omega, this.2.2⟩

theorem wf_ofWords (ws : List Word) (n : Nat) : Cells.wf (n + ws.length) (Cells.ofWords n ws) := by
  refine ⟨?_, fun p hp => (mem_ofWords hp).2⟩
  induction ws generalizing n with
  | nil => exact List.Pairwise.nil
  | cons w ws ih =>
    simp only [Cells.ofWords]
    split
    · exact ih (n + 1)
    · exact List.pairwise_cons.mpr ⟨fun p hp => by have := mem_ofWords hp; simp only; omega, ih (n + 1)⟩

/-- Offset `n + i` holds word `i` of the sequence (70_reset_and_hazards.md R202). -/
theorem read_ofWords (ws : List Word) (n i : Nat) : Cells.read (Cells.ofWords n ws) (n + i) = ws.getD i 0#32 := by
  induction ws generalizing n i with
  | nil => simp [Cells.ofWords, Cells.read]
  | cons w ws ih =>
    simp only [Cells.ofWords]
    cases i with
    | zero =>
      have hz : Cells.read (Cells.ofWords (n + 1) ws) n = 0#32 :=
        read_of_lt_all fun p hp => by have := mem_ofWords hp; omega
      by_cases hw : w = 0#32
      · simp [hw, hz]
      · simp [hw, Cells.read]
    | succ i =>
      have := ih (n + 1) i
      rw [show n + 1 + i = n + (i + 1) by omega] at this
      by_cases hw : w = 0#32
      · simpa [hw] using this
      · simpa [hw, Cells.read] using this

end Cells

/-! ## Segments -/

@[simp] theorem Segment.write_len (g : Segment) (o : Nat) (v : Word) : (g.write o v).len = g.len := rfl

@[simp] theorem Segment.zeros_len (n : Nat) : (Segment.zeros n).len = n := rfl

@[simp] theorem Segment.ofWords_len (ws : List Word) : (Segment.ofWords ws).len = ws.length := rfl

/-- Every word of a new segment reads 0 (20_memory.md R51). -/
@[simp] theorem Segment.zeros_read (n o : Nat) : (Segment.zeros n).read o = 0#32 := rfl

theorem Segment.read_write {g : Segment} (h : g.wf) (o : Nat) (v : Word) (q : Nat) :
    (g.write o v).read q = if q = o then v else g.read q :=
  Cells.read_write h.2.1 o v q

theorem Segment.wf_write {g : Segment} (h : g.wf) {o : Nat} (ho : o < g.len) (v : Word) : (g.write o v).wf :=
  ⟨h.1, Cells.wf_write h.2 ho v⟩

theorem Segment.wf_zeros {n : Nat} (h : n ≤ 4294967295) : (Segment.zeros n).wf :=
  ⟨h, List.Pairwise.nil, by simp [Segment.zeros]⟩

theorem Segment.wf_ofWords {ws : List Word} (h : ws.length ≤ 4294967295) : (Segment.ofWords ws).wf := by
  refine ⟨h, ?_⟩
  simpa [Segment.ofWords] using Cells.wf_ofWords ws 0

theorem Segment.read_ofWords (ws : List Word) (i : Nat) : (Segment.ofWords ws).read i = ws.getD i 0#32 := by
  simpa [Segment.ofWords, Segment.read] using Cells.read_ofWords ws 0 i

/-- Segments of one length with the same words are the same data. -/
theorem Segment.ext_of_read {g g' : Segment} (h : g.wf) (h' : g'.wf) (hl : g.len = g'.len)
    (hr : ∀ o, g.read o = g'.read o) : g = g' := by
  obtain ⟨len, cs⟩ := g
  obtain ⟨len', cs'⟩ := g'
  simp only at hl
  subst hl
  have hc : cs = cs' :=
    Cells.ext_of_read h.2.1 h'.2.1 (fun p hp => (h.2.2 p hp).2) (fun p hp => (h'.2.2 p hp).2) hr
  rw [hc]

end Sys2Proof.Machine
end

