-- ==== Sys2Proof/Laws/Memory.lean ====
section
/-! SUPPORT. The segment store: what `putSlot` does to every slot, the pool's lowest member, the live words, what each
of the five store operations can do, and that each keeps the store's form. -/

namespace Sys2Proof.Machine

/-! ## Slots -/

/-- The segment of a slot, none when it is reclaimed. -/
def Slot.seg? : Slot → Option Segment
  | .live g => some g
  | .reclaimed => none

/-- The words of a slot that count as live. -/
def Slot.words : Slot → Nat
  | .live g => g.len
  | .reclaimed => 0

theorem Memory.liveSeg_eq (m : Memory) (h : Nat) : m.liveSeg h = m.slots[h]?.bind Slot.seg? := by
  unfold Memory.liveSeg
  split <;> simp_all [Slot.seg?]

theorem Memory.liveSeg_eq_some {m : Memory} {h : Nat} {g : Segment} :
    m.liveSeg h = some g ↔ m.slots[h]? = some (.live g) := by
  unfold Memory.liveSeg
  split <;> simp_all

theorem Memory.inPool_iff {m : Memory} {h : Nat} : m.inPool h = true ↔ m.slots[h]? = some .reclaimed := by
  simp [Memory.inPool]

theorem Memory.lt_hwm_of_live {m : Memory} {h : Nat} {g : Segment} (hl : m.liveSeg h = some g) : h < m.hwm :=
  (List.getElem?_eq_some_iff.mp (Memory.liveSeg_eq_some.mp hl)).1

theorem Memory.lt_hwm_of_inPool {m : Memory} {h : Nat} (hp : m.inPool h = true) : h < m.hwm :=
  (List.getElem?_eq_some_iff.mp (Memory.inPool_iff.mp hp)).1

/-- A handle in the pool is not live (10_state.md R31, "never both"). -/
theorem Memory.liveSeg_of_inPool {m : Memory} {h : Nat} (hp : m.inPool h = true) : m.liveSeg h = none := by
  rw [Memory.liveSeg_eq, Memory.inPool_iff.mp hp]; rfl

/-- Below `hwm` a slot is live or in the pool. -/
theorem Memory.live_or_inPool {m : Memory} {h : Nat} (hh : h < m.hwm) :
    (∃ g, m.liveSeg h = some g) ∨ m.inPool h = true := by
  have hx : m.slots[h]? = some (m.slots[h]'hh) := List.getElem?_eq_getElem hh
  cases hs : m.slots[h]'hh with
  | live g => exact .inl ⟨g, Memory.liveSeg_eq_some.mpr (by rw [hx, hs])⟩
  | reclaimed => exact .inr (Memory.inPool_iff.mpr (by rw [hx, hs]))

/-- What `putSlot` does to the slots: slot `h` is the new one and every other slot is as it was. -/
theorem Memory.slots_putSlot {m : Memory} {h : Nat} (hh : h ≤ m.hwm) (sl : Slot) (k : Nat) :
    (m.putSlot h sl).slots[k]? = if k = h then some sl else m.slots[k]? := by
  unfold Memory.putSlot
  by_cases he : h = m.hwm
  · subst he
    simp only [if_true, Memory.hwm, List.getElem?_append]
    by_cases hk : k < m.slots.length
    · simp [hk, hk.ne]
    · by_cases hk2 : k = m.slots.length
      · simp [hk2]
      · have : 1 ≤ k - m.slots.length := by omega
        simp [hk, hk2]; omega
  · have hlt : h < m.slots.length := lt_of_le_of_ne hh he
    simp only [he, if_false, List.getElem?_set, hlt, if_true]
    by_cases hk : h = k
    · simp [hk]
    · simp [hk, Ne.symm hk]

theorem Memory.liveSeg_putSlot {m : Memory} {h : Nat} (hh : h ≤ m.hwm) (sl : Slot) (k : Nat) :
    (m.putSlot h sl).liveSeg k = if k = h then sl.seg? else m.liveSeg k := by
  rw [Memory.liveSeg_eq, Memory.slots_putSlot hh, Memory.liveSeg_eq]
  split <;> rfl

theorem Memory.inPool_putSlot {m : Memory} {h : Nat} (hh : h ≤ m.hwm) (sl : Slot) (k : Nat) :
    (m.putSlot h sl).inPool k = if k = h then sl == .reclaimed else m.inPool k := by
  unfold Memory.inPool
  rw [Memory.slots_putSlot hh]
  split <;> simp

theorem Memory.hwm_putSlot (m : Memory) (h : Nat) (sl : Slot) :
    (m.putSlot h sl).hwm = if h = m.hwm then m.hwm + 1 else m.hwm := by
  unfold Memory.putSlot
  split <;> simp_all [Memory.hwm]

theorem Memory.hwm_putSlot_of_lt {m : Memory} {h : Nat} (hh : h < m.hwm) (sl : Slot) :
    (m.putSlot h sl).hwm = m.hwm := by
  rw [Memory.hwm_putSlot, if_neg hh.ne]

theorem slotWords_append (ss : List Slot) (sl : Slot) : slotWords (ss ++ [sl]) = slotWords ss + sl.words := by
  induction ss with
  | nil => cases sl <;> simp [slotWords, Slot.words]
  | cons s ss ih => cases s <;> simp [slotWords, ih, Nat.add_assoc]

theorem slotWords_set {ss : List Slot} {h : Nat} {old : Slot} (ho : ss[h]? = some old) (sl : Slot) :
    slotWords (ss.set h sl) + old.words = slotWords ss + sl.words := by
  induction ss generalizing h with
  | nil => simp at ho
  | cons s ss ih =>
    cases h with
    | zero => simp at ho; subst ho; cases s <;> cases sl <;> simp [slotWords, Slot.words] <;> omega
    | succ h => have := ih (by simpa using ho); cases s <;> simp [slotWords] <;> omega

/-- `live_words` after a slot is replaced. -/
theorem Memory.liveWords_putSlot_of_slot {m : Memory} {h : Nat} {old : Slot} (ho : m.slots[h]? = some old)
    (sl : Slot) : (m.putSlot h sl).liveWords + old.words = m.liveWords + sl.words := by
  have hlt : h < m.hwm := (List.getElem?_eq_some_iff.mp ho).1
  unfold Memory.putSlot
  rw [if_neg hlt.ne]
  exact slotWords_set ho sl

/-- `live_words` after a slot is appended. -/
theorem Memory.liveWords_putSlot_append (m : Memory) (sl : Slot) :
    (m.putSlot m.hwm sl).liveWords = m.liveWords + sl.words := by
  unfold Memory.putSlot
  rw [if_pos rfl]
  exact slotWords_append _ _

/-! ## The pool's lowest member -/

theorem lowestReclaimed_none {ss : List Slot} (h : lowestReclaimed ss = none) (k : Nat) :
    ss[k]? ≠ some .reclaimed := by
  induction ss generalizing k with
  | nil => simp
  | cons s ss ih =>
    cases s with
    | reclaimed => simp [lowestReclaimed] at h
    | live g =>
      cases k with
      | zero => simp
      | succ k => simpa using ih (by simpa [lowestReclaimed] using h) k

theorem lowestReclaimed_some {ss : List Slot} {h : Nat} (hl : lowestReclaimed ss = some h) :
    ss[h]? = some .reclaimed ∧ ∀ k < h, ss[k]? ≠ some .reclaimed := by
  induction ss generalizing h with
  | nil => simp [lowestReclaimed] at hl
  | cons s ss ih =>
    cases s with
    | reclaimed => simp [lowestReclaimed] at hl; subst hl; simp
    | live g =>
      simp only [lowestReclaimed, Option.map_eq_some_iff] at hl
      obtain ⟨j, hj, rfl⟩ := hl
      refine ⟨by simpa using (ih hj).1, fun k hk => ?_⟩
      cases k with
      | zero => simp
      | succ k => simpa using (ih hj).2 k (by omega)

theorem lowestReclaimed_eq_some_iff {ss : List Slot} {h : Nat} :
    lowestReclaimed ss = some h ↔ ss[h]? = some .reclaimed ∧ ∀ k < h, ss[k]? ≠ some .reclaimed := by
  refine ⟨lowestReclaimed_some, fun ⟨h1, h2⟩ => ?_⟩
  cases hl : lowestReclaimed ss with
  | none => exact absurd h1 (lowestReclaimed_none hl h)
  | some j =>
    obtain ⟨j1, j2⟩ := lowestReclaimed_some hl
    rcases Nat.lt_trichotomy j h with hlt | rfl | hgt
    · exact absurd j1 (h2 j hlt)
    · rfl
    · exact absurd h1 (j2 h hgt)

/-! ## The form of the store -/

theorem Slot.wf_live {n : Nat} {g : Segment} : Slot.wf n (.live g) = true ↔ n ≤ g.len ∧ g.wf := by
  simp [Slot.wf]

/-- The store's form, said of handles: segment 0 is live, and every live segment is canonical and, but for segment 0,
has a word. -/
theorem Memory.wf_iff {m : Memory} :
    m.wf ↔ (∃ g, m.liveSeg 0 = some g) ∧ ∀ h g, m.liveSeg h = some g → g.wf ∧ (h ≠ 0 → 1 ≤ g.len) := by
  constructor
  · rintro ⟨h0, h1, h2⟩
    refine ⟨Option.isSome_iff_exists.mp h0, fun h g hg => ?_⟩
    have hs := Memory.liveSeg_eq_some.mp hg
    refine ⟨(Slot.wf_live.mp (h1 _ (List.mem_of_getElem? hs))).2, fun hne => ?_⟩
    obtain ⟨k, rfl⟩ := Nat.exists_eq_succ_of_ne_zero hne
    have : (Slot.live g) ∈ m.slots.tail := List.mem_of_getElem? (i := k) (by simpa using hs)
    exact (Slot.wf_live.mp (h2 _ this)).1
  · rintro ⟨h0, h1⟩
    refine ⟨Option.isSome_iff_exists.mpr h0, fun slot hs => ?_, fun slot hs => ?_⟩
    · cases slot with
      | reclaimed => rfl
      | live g =>
        obtain ⟨k, hk⟩ := List.getElem?_of_mem hs
        exact Slot.wf_live.mpr ⟨Nat.zero_le _, (h1 k g (Memory.liveSeg_eq_some.mpr hk)).1⟩
    · cases slot with
      | reclaimed => rfl
      | live g =>
        obtain ⟨k, hk⟩ := List.getElem?_of_mem hs
        have hk' : m.slots[k + 1]? = some (.live g) := by simpa using hk
        have := h1 (k + 1) g (Memory.liveSeg_eq_some.mpr hk')
        exact Slot.wf_live.mpr ⟨this.2 (by omega), this.1⟩

theorem Memory.wf.zero_live {m : Memory} (h : m.wf) : ∃ g, m.liveSeg 0 = some g := (Memory.wf_iff.mp h).1

theorem Memory.wf.seg_wf {m : Memory} (h : m.wf) {k : Nat} {g : Segment} (hg : m.liveSeg k = some g) : g.wf :=
  ((Memory.wf_iff.mp h).2 k g hg).1

theorem Memory.wf.seg_pos {m : Memory} (h : m.wf) {k : Nat} {g : Segment} (hg : m.liveSeg k = some g)
    (hk : k ≠ 0) : 1 ≤ g.len :=
  ((Memory.wf_iff.mp h).2 k g hg).2 hk

theorem Memory.wf.hwm_pos {m : Memory} (h : m.wf) : 1 ≤ m.hwm := by
  obtain ⟨g, hg⟩ := h.zero_live
  exact Memory.lt_hwm_of_live hg

theorem Memory.progLen_of_live {m : Memory} {g : Segment} (h : m.liveSeg 0 = some g) : m.progLen = g.len := by
  simp [Memory.progLen, h]

theorem Memory.wf.progLen_le {m : Memory} (h : m.wf) : m.progLen ≤ 4294967295 := by
  obtain ⟨g, hg⟩ := h.zero_live
  rw [Memory.progLen_of_live hg]
  exact (h.seg_wf hg).1

/-- Replacing or appending a slot keeps the form, when the new slot has it. -/
theorem Memory.wf_putSlot {m : Memory} (hm : m.wf) {h : Nat} (hh : h ≤ m.hwm) {sl : Slot}
    (hs : ∀ g, sl = .live g → g.wf ∧ (h ≠ 0 → 1 ≤ g.len)) (h0 : h = 0 → ∃ g, sl = .live g) :
    (m.putSlot h sl).wf := by
  rw [Memory.wf_iff]
  constructor
  · rw [Memory.liveSeg_putSlot hh]
    by_cases hz : 0 = h
    · obtain ⟨g, rfl⟩ := h0 hz.symm
      exact ⟨g, by simp [hz, Slot.seg?]⟩
    · simpa [hz] using hm.zero_live
  · intro k g hg
    rw [Memory.liveSeg_putSlot hh] at hg
    by_cases hk : k = h
    · rw [if_pos hk] at hg
      cases sl with
      | reclaimed => simp [Slot.seg?] at hg
      | live g' =>
        simp only [Slot.seg?, Option.some.injEq] at hg
        subst hg
        rw [hk]
        exact hs g' rfl
    · rw [if_neg hk] at hg
      exact (Memory.wf_iff.mp hm).2 k g hg

/-! ## What each store operation can do -/

theorem Memory.read_ok {m : Memory} {h o v : Word} :
    m.read h o = .ok v ↔ ∃ g, m.liveSeg h.toNat = some g ∧ o.toNat < g.len ∧ v = g.read o.toNat := by
  unfold Memory.read
  cases hg : m.liveSeg h.toNat with
  | none => simp
  | some g =>
    by_cases ho : g.len ≤ o.toNat
    · simp [ho, Nat.not_lt.mpr ho]
    · simp [ho, Nat.lt_of_not_le ho, eq_comm]

/-- A read's two faults, the handle's before the offset's (20_memory.md R48). -/
theorem Memory.read_error {m : Memory} {h o : Word} {k : FaultKind} :
    m.read h o = .error k ↔ (m.liveSeg h.toNat = none ∧ k = .segBadHandle) ∨
      (∃ g, m.liveSeg h.toNat = some g ∧ g.len ≤ o.toNat ∧ k = .segBadOffset) := by
  unfold Memory.read
  cases hg : m.liveSeg h.toNat with
  | none => simp [eq_comm]
  | some g =>
    by_cases ho : g.len ≤ o.toNat
    · simp [ho, eq_comm]
    · simp [ho]

/-- A read depends on the live segments alone. -/
theorem Memory.read_congr {m m' : Memory} {h : Word} (hl : m'.liveSeg h.toNat = m.liveSeg h.toNat) (o : Word) :
    m'.read h o = m.read h o := by
  simp [Memory.read, hl]

theorem Memory.write_ok {m m' : Memory} {h o v : Word} :
    m.write h o v = .ok m' ↔ ∃ g, m.liveSeg h.toNat = some g ∧ o.toNat < g.len ∧
      m' = m.putSlot h.toNat (.live (g.write o.toNat v)) := by
  unfold Memory.write
  cases hg : m.liveSeg h.toNat with
  | none => simp
  | some g =>
    by_cases ho : g.len ≤ o.toNat
    · simp [ho, Nat.not_lt.mpr ho]
    · simp [ho, Nat.lt_of_not_le ho, eq_comm]

/-- A write's two faults are a read's (20_memory.md R49). -/
theorem Memory.write_error {m : Memory} {h o v : Word} {k : FaultKind} :
    m.write h o v = .error k ↔ m.read h o = .error k := by
  unfold Memory.write Memory.read
  cases hg : m.liveSeg h.toNat with
  | none => simp
  | some g => by_cases ho : g.len ≤ o.toNat <;> simp [ho]

theorem Memory.chooseHandle_ok {cfg : Config} {m : Memory} {h : Nat} :
    m.chooseHandle cfg = .ok h ↔ (m.inPool h = true ∧ ∀ k < h, m.inPool k = false) ∨
      (h = m.hwm ∧ m.hwm ≠ cfg.maxSlots ∧ ∀ k, m.inPool k = false) := by
  have hp : ∀ k, m.inPool k = false ↔ m.slots[k]? ≠ some .reclaimed := fun k => by simp [Memory.inPool]
  unfold Memory.chooseHandle
  cases hl : lowestReclaimed m.slots with
  | some j =>
    have := lowestReclaimed_some hl
    simp only [Except.ok.injEq]
    constructor
    · rintro rfl
      exact .inl ⟨Memory.inPool_iff.mpr this.1, fun k hk => (hp k).mpr (this.2 k hk)⟩
    · rintro (⟨h1, h2⟩ | ⟨-, -, h3⟩)
      · have : lowestReclaimed m.slots = some h := lowestReclaimed_eq_some_iff.mpr
          ⟨Memory.inPool_iff.mp h1, fun k hk => (hp k).mp (h2 k hk)⟩
        rw [hl] at this; simpa using this
      · exact absurd this.1 ((hp j).mp (h3 j))
  | none =>
    have hn := lowestReclaimed_none hl
    constructor
    · intro h1
      refine .inr ?_
      by_cases he : m.hwm = cfg.maxSlots
      · simp [he] at h1
      · simp only [he, if_false, Except.ok.injEq] at h1
        exact ⟨h1.symm, he, fun k => (hp k).mpr (hn k)⟩
    · rintro (⟨h1, -⟩ | ⟨h1, h2, -⟩)
      · exact absurd (Memory.inPool_iff.mp h1) (hn h)
      · simp [h2, h1]

theorem Memory.chooseHandle_error {cfg : Config} {m : Memory} {k : FaultKind} :
    m.chooseHandle cfg = .error k ↔ k = .handleExhausted ∧ m.hwm = cfg.maxSlots ∧ ∀ h, m.inPool h = false := by
  unfold Memory.chooseHandle
  cases hl : lowestReclaimed m.slots with
  | some j =>
    have := Memory.inPool_iff.mpr (lowestReclaimed_some hl).1
    simp only [reduceCtorEq, false_iff, not_and]
    intro _ _ h3
    simp [h3 j] at this
  | none =>
    have hn := lowestReclaimed_none hl
    by_cases he : m.hwm = cfg.maxSlots
    · simp only [he, if_true, Except.error.injEq, true_and]
      exact ⟨fun h => ⟨h.symm, fun h => by simp [Memory.inPool, hn h]⟩, fun h => h.1.symm⟩
    · simp [he]

/-- A handle the allocator chooses is at most `hwm`, not live, and not 0 when slot 0 is live (20_memory.md R53). -/
theorem Memory.chooseHandle_le {cfg : Config} {m : Memory} {h : Nat} (hc : m.chooseHandle cfg = .ok h) :
    h ≤ m.hwm ∧ m.liveSeg h = none := by
  rcases Memory.chooseHandle_ok.mp hc with ⟨h1, -⟩ | ⟨rfl, -, -⟩
  · exact ⟨(Memory.lt_hwm_of_inPool h1).le, Memory.liveSeg_of_inPool h1⟩
  · exact ⟨le_refl _, by rw [Memory.liveSeg_eq, Memory.hwm, List.getElem?_eq_none (le_refl _)]; rfl⟩

theorem Memory.chooseHandle_ne_zero {cfg : Config} {m : Memory} {h : Nat} (hm : m.wf)
    (hc : m.chooseHandle cfg = .ok h) : h ≠ 0 := by
  rintro rfl
  obtain ⟨g, hg⟩ := hm.zero_live
  simp [(Memory.chooseHandle_le hc).2] at hg

theorem Memory.allocate_ok {cfg : Config} {m m' : Memory} {n : Word} {h : Nat} :
    m.allocate cfg n = .ok (h, m') ↔ n ≠ 0#32 ∧ m.chooseHandle cfg = .ok h ∧
      exceedsCapacity cfg (m.liveWords + n.toNat) = false ∧ m' = m.putSlot h (.live (Segment.zeros n.toNat)) := by
  unfold Memory.allocate
  by_cases hn : n = 0#32
  · simp [hn]
  · cases hc : m.chooseHandle cfg with
    | error k => simp [hn]
    | ok j =>
      cases he : exceedsCapacity cfg (m.liveWords + n.toNat)
      · simp only [hn, if_false, Bool.false_eq_true, Except.ok.injEq, Prod.mk.injEq, ne_eq,
          not_false_eq_true, true_and]
        constructor
        · rintro ⟨rfl, rfl⟩; exact ⟨rfl, rfl⟩
        · rintro ⟨rfl, rfl⟩; exact ⟨rfl, rfl⟩
      · simp [hn]

/-- The three faults of an allocation, in the order of 60_exceptions.md R174. -/
theorem Memory.allocate_error {cfg : Config} {m : Memory} {n : Word} {k : FaultKind} :
    m.allocate cfg n = .error k ↔ (n = 0#32 ∧ k = .mapZeroLength) ∨
      (n ≠ 0#32 ∧ m.chooseHandle cfg = .error k) ∨
      (n ≠ 0#32 ∧ (∃ h, m.chooseHandle cfg = .ok h) ∧ exceedsCapacity cfg (m.liveWords + n.toNat) = true ∧
        k = .memoryExhausted) := by
  unfold Memory.allocate
  by_cases hn : n = 0#32
  · simp [hn, eq_comm (b := k)]
  · cases hc : m.chooseHandle cfg with
    | error k => simp [hn]
    | ok j =>
      cases he : exceedsCapacity cfg (m.liveWords + n.toNat)
      · simp [hn]
      · simp [hn, eq_comm (b := k)]

theorem Memory.free_ok {m m' : Memory} {h : Word} :
    m.free h = .ok m' ↔ h ≠ 0#32 ∧ (∃ g, m.liveSeg h.toNat = some g) ∧ m' = m.putSlot h.toNat .reclaimed := by
  unfold Memory.free
  by_cases h0 : h = 0#32
  · simp [h0]
  · cases hg : m.liveSeg h.toNat with
    | none => simp [h0]
    | some g => simp [h0, eq_comm (b := m')]

/-- The three conditions of an invalid free, one kind (20_memory.md R54, 60_exceptions.md R174). -/
theorem Memory.free_error {m : Memory} {h : Word} {k : FaultKind} :
    m.free h = .error k ↔ (h = 0#32 ∨ m.liveSeg h.toNat = none) ∧ k = .unmapInvalid := by
  unfold Memory.free
  by_cases h0 : h = 0#32
  · simp [h0, eq_comm (b := k)]
  · cases hg : m.liveSeg h.toNat with
    | none => simp [h0, eq_comm (b := k)]
    | some g => simp [h0]

theorem Memory.dupIntoZero_ok {cfg : Config} {m m' : Memory} {h : Word} :
    m.dupIntoZero cfg h = .ok m' ↔ (h = 0#32 ∧ m' = m) ∨
      (h ≠ 0#32 ∧ ∃ g, m.liveSeg h.toNat = some g ∧
        exceedsCapacity cfg (m.liveWords - m.progLen + g.len) = false ∧ m' = m.putSlot 0 (.live g)) := by
  unfold Memory.dupIntoZero
  by_cases h0 : h = 0#32
  · simp [h0, eq_comm (b := m')]
  · cases hg : m.liveSeg h.toNat with
    | none => simp [h0]
    | some g =>
      cases he : exceedsCapacity cfg (m.liveWords - m.progLen + g.len) <;> simp [h0, he, eq_comm (b := m')]

theorem Memory.dupIntoZero_error {cfg : Config} {m : Memory} {h : Word} {k : FaultKind} :
    m.dupIntoZero cfg h = .error k ↔ h ≠ 0#32 ∧ ((m.liveSeg h.toNat = none ∧ k = .loadpBadHandle) ∨
      ∃ g, m.liveSeg h.toNat = some g ∧ exceedsCapacity cfg (m.liveWords - m.progLen + g.len) = true ∧
        k = .memoryExhausted) := by
  unfold Memory.dupIntoZero
  by_cases h0 : h = 0#32
  · simp [h0]
  · cases hg : m.liveSeg h.toNat with
    | none => simp [h0, eq_comm (b := k)]
    | some g =>
      cases he : exceedsCapacity cfg (m.liveWords - m.progLen + g.len) <;> simp [h0, he, eq_comm (b := k)]

theorem Memory.loadProgram_ok {cfg : Config} {m m' : Memory} {h t : Word} :
    m.loadProgram cfg h t = .ok m' ↔ m.dupIntoZero cfg h = .ok m' ∧ t.toNat < m'.progLen := by
  unfold Memory.loadProgram
  cases hd : m.dupIntoZero cfg h with
  | error k => simp
  | ok m₁ =>
    by_cases ht : m₁.progLen ≤ t.toNat
    · simp only [ht, if_true, reduceCtorEq, Except.ok.injEq, false_iff, not_and, not_lt]
      rintro rfl; exact ht
    · simp only [ht, if_false, Except.ok.injEq]
      exact ⟨fun h => ⟨h, by rw [← h]; omega⟩, fun h => h.1⟩

/-- Load-program's faults: the copy's before the target's (60_exceptions.md R174). -/
theorem Memory.loadProgram_error {cfg : Config} {m : Memory} {h t : Word} {k : FaultKind} :
    m.loadProgram cfg h t = .error k ↔ m.dupIntoZero cfg h = .error k ∨
      ∃ m', m.dupIntoZero cfg h = .ok m' ∧ m'.progLen ≤ t.toNat ∧ k = .loadpBadTarget := by
  unfold Memory.loadProgram
  cases hd : m.dupIntoZero cfg h with
  | error k => simp
  | ok m₁ => by_cases ht : m₁.progLen ≤ t.toNat <;> simp [ht, eq_comm (b := k)]

/-! ## Every store operation keeps the form -/

theorem Memory.wf_write {m m' : Memory} {h o v : Word} (hm : m.wf) (hw : m.write h o v = .ok m') : m'.wf := by
  obtain ⟨g, hg, ho, rfl⟩ := Memory.write_ok.mp hw
  refine Memory.wf_putSlot hm (Memory.lt_hwm_of_live hg).le (fun g' hg' => ?_) fun _ => ⟨_, rfl⟩
  simp only [Slot.live.injEq] at hg'
  subst hg'
  exact ⟨Segment.wf_write (hm.seg_wf hg) ho v, fun hne => by simpa using hm.seg_pos hg hne⟩

theorem Memory.wf_allocate {cfg : Config} {m m' : Memory} {n : Word} {h : Nat} (hm : m.wf)
    (ha : m.allocate cfg n = .ok (h, m')) : m'.wf := by
  obtain ⟨hn, hc, -, rfl⟩ := Memory.allocate_ok.mp ha
  refine Memory.wf_putSlot hm (Memory.chooseHandle_le hc).1 (fun g' hg' => ?_) fun _ => ⟨_, rfl⟩
  simp only [Slot.live.injEq] at hg'
  subst hg'
  have hlt := n.isLt
  have hpos : n.toNat ≠ 0 := fun h => hn (by apply BitVec.eq_of_toNat_eq; simpa using h)
  exact ⟨Segment.wf_zeros (by omega), fun _ => by simp only [Segment.zeros_len]; omega⟩

theorem Memory.wf_free {m m' : Memory} {h : Word} (hm : m.wf) (hf : m.free h = .ok m') : m'.wf := by
  obtain ⟨h0, ⟨g, hg⟩, rfl⟩ := Memory.free_ok.mp hf
  refine Memory.wf_putSlot hm (Memory.lt_hwm_of_live hg).le (fun _ hg' => by simp at hg') fun hz => ?_
  exact absurd (BitVec.eq_of_toNat_eq (by simpa using hz)) h0

theorem Memory.wf_dupIntoZero {cfg : Config} {m m' : Memory} {h : Word} (hm : m.wf)
    (hd : m.dupIntoZero cfg h = .ok m') : m'.wf := by
  rcases Memory.dupIntoZero_ok.mp hd with ⟨-, rfl⟩ | ⟨-, g, hg, -, rfl⟩
  · exact hm
  · refine Memory.wf_putSlot hm (Nat.zero_le _) (fun g' hg' => ?_) fun _ => ⟨_, rfl⟩
    simp only [Slot.live.injEq] at hg'
    subst hg'
    exact ⟨hm.seg_wf hg, fun hne => absurd rfl hne⟩

theorem Memory.wf_loadProgram {cfg : Config} {m m' : Memory} {h t : Word} (hm : m.wf)
    (hl : m.loadProgram cfg h t = .ok m') : m'.wf :=
  Memory.wf_dupIntoZero hm (Memory.loadProgram_ok.mp hl).1

/-! ## What every store operation does to the live words -/

theorem Memory.liveWords_write {m m' : Memory} {h o v : Word} (hw : m.write h o v = .ok m') :
    m'.liveWords = m.liveWords := by
  obtain ⟨g, hg, -, rfl⟩ := Memory.write_ok.mp hw
  have := Memory.liveWords_putSlot_of_slot (Memory.liveSeg_eq_some.mp hg) (.live (g.write o.toNat v))
  simp only [Slot.words, Segment.write_len] at this
  omega

theorem Memory.liveWords_allocate {cfg : Config} {m m' : Memory} {n : Word} {h : Nat}
    (ha : m.allocate cfg n = .ok (h, m')) : m'.liveWords = m.liveWords + n.toNat := by
  obtain ⟨-, hc, -, rfl⟩ := Memory.allocate_ok.mp ha
  rcases Memory.chooseHandle_ok.mp hc with ⟨hp, -⟩ | ⟨rfl, -⟩
  · exact Memory.liveWords_putSlot_of_slot (Memory.inPool_iff.mp hp) _
  · exact Memory.liveWords_putSlot_append m _

theorem Memory.liveWords_free {m m' : Memory} {h : Word} {g : Segment} (hg : m.liveSeg h.toNat = some g)
    (hf : m.free h = .ok m') : m'.liveWords + g.len = m.liveWords := by
  obtain ⟨-, -, rfl⟩ := Memory.free_ok.mp hf
  exact Memory.liveWords_putSlot_of_slot (Memory.liveSeg_eq_some.mp hg) .reclaimed

theorem Memory.liveWords_dupIntoZero {cfg : Config} {m m' : Memory} {h : Word} {g : Segment} (h0 : h ≠ 0#32)
    (hg : m.liveSeg h.toNat = some g) (hd : m.dupIntoZero cfg h = .ok m') :
    m'.liveWords + m.progLen = m.liveWords + g.len := by
  obtain ⟨rfl, -⟩ | ⟨-, g', hg', -, rfl⟩ := Memory.dupIntoZero_ok.mp hd
  · exact absurd rfl h0
  · obtain rfl : g = g' := by simpa [hg] using hg'
    rcases Memory.live_or_inPool (Nat.zero_lt_of_lt (Memory.lt_hwm_of_live hg)) with ⟨z, hz⟩ | hp
    · rw [Memory.progLen_of_live hz]
      exact Memory.liveWords_putSlot_of_slot (Memory.liveSeg_eq_some.mp hz) (.live g)
    · have hn := Memory.liveSeg_of_inPool hp
      simpa [Memory.progLen, hn, Slot.words] using Memory.liveWords_putSlot_of_slot (Memory.inPool_iff.mp hp) (.live g)

/-- Stores of equal slots that read the same and have the same lengths are the same data. -/
theorem Memory.ext_of_read {m m' : Memory} (hm : m.wf) (hm' : m'.wf) (hh : m.hwm = m'.hwm)
    (hs : ∀ h, (m.liveSeg h).map Segment.len = (m'.liveSeg h).map Segment.len)
    (hr : ∀ h g g' o, m.liveSeg h = some g → m'.liveSeg h = some g' → g.read o = g'.read o) : m = m' := by
  obtain ⟨ss⟩ := m
  obtain ⟨ss'⟩ := m'
  congr 1
  apply List.ext_getElem hh
  intro k hk hk'
  have e := List.getElem?_eq_getElem hk
  have e' := List.getElem?_eq_getElem hk'
  have := hs k
  cases hg : ss[k] with
  | live g =>
    rw [hg] at e
    have h1 := Memory.liveSeg_eq_some.mpr e
    cases hg' : ss'[k] with
    | live g' =>
      rw [hg'] at e'
      have h2 := Memory.liveSeg_eq_some.mpr e'
      rw [h1, h2] at this
      rw [Segment.ext_of_read (hm.seg_wf h1) (hm'.seg_wf h2) (by simpa using this) fun o => hr k g g' o h1 h2]
    | reclaimed =>
      rw [hg'] at e'
      rw [h1, Memory.liveSeg_of_inPool (Memory.inPool_iff.mpr e')] at this
      simp at this
  | reclaimed =>
    rw [hg] at e
    have h1 := Memory.liveSeg_of_inPool (Memory.inPool_iff.mpr e)
    cases hg' : ss'[k] with
    | live g' =>
      rw [hg'] at e'
      rw [h1, Memory.liveSeg_eq_some.mpr e'] at this
      simp at this
    | reclaimed => rfl

end Sys2Proof.Machine
end

