-- ==== Sys2Proof/Laws/State.lean ====
section
/-! SUPPORT. One lemma for each field after each named update of the state, so that no proof unfolds a record update,
and the reading of a register after each of them. -/

namespace Sys2Proof.Machine

variable (s : State)

/-- A register read after a write: the written value or the old one. -/
theorem getReg_setReg (r q : Reg) (v : Word) : (s.setReg r v).getReg q = if q = r then v else s.getReg q := by
  simp [State.getReg, State.setReg, Vector.getElem_set, Fin.ext_iff, eq_comm]

@[simp] theorem getReg_setReg_same (r : Reg) (v : Word) : (s.setReg r v).getReg r = v := by
  simp [getReg_setReg]

@[simp] theorem getReg_setReg_ne {r q : Reg} (v : Word) (h : q ≠ r) : (s.setReg r v).getReg q = s.getReg q := by
  simp [getReg_setReg, h]

/-- Reading a register depends on the register file alone. -/
theorem getReg_congr {s t : State} (h : t.regs = s.regs) (q : Reg) : t.getReg q = s.getReg q := by
  simp [State.getReg, h]

@[simp] theorem setReg_pc (r : Reg) (v : Word) : (s.setReg r v).pc = s.pc := rfl
@[simp] theorem setReg_runState (r : Reg) (v : Word) : (s.setReg r v).runState = s.runState := rfl
@[simp] theorem setReg_memory (r : Reg) (v : Word) : (s.setReg r v).memory = s.memory := rfl
@[simp] theorem setReg_input (r : Reg) (v : Word) : (s.setReg r v).input = s.input := rfl
@[simp] theorem setReg_output (r : Reg) (v : Word) : (s.setReg r v).output = s.output := rfl
@[simp] theorem setReg_cfg (r : Reg) (v : Word) : (s.setReg r v).cfg = s.cfg := rfl

@[simp] theorem setPc_regs (p : Word) : (s.setPc p).regs = s.regs := rfl
@[simp] theorem setPc_pc (p : Word) : (s.setPc p).pc = p := rfl
@[simp] theorem setPc_runState (p : Word) : (s.setPc p).runState = s.runState := rfl
@[simp] theorem setPc_memory (p : Word) : (s.setPc p).memory = s.memory := rfl
@[simp] theorem setPc_input (p : Word) : (s.setPc p).input = s.input := rfl
@[simp] theorem setPc_output (p : Word) : (s.setPc p).output = s.output := rfl
@[simp] theorem setPc_cfg (p : Word) : (s.setPc p).cfg = s.cfg := rfl
@[simp] theorem setPc_getReg (p : Word) (q : Reg) : (s.setPc p).getReg q = s.getReg q := rfl

@[simp] theorem setRunState_regs (r : RunState) : (s.setRunState r).regs = s.regs := rfl
@[simp] theorem setRunState_pc (r : RunState) : (s.setRunState r).pc = s.pc := rfl
@[simp] theorem setRunState_runState (r : RunState) : (s.setRunState r).runState = r := rfl
@[simp] theorem setRunState_memory (r : RunState) : (s.setRunState r).memory = s.memory := rfl
@[simp] theorem setRunState_input (r : RunState) : (s.setRunState r).input = s.input := rfl
@[simp] theorem setRunState_output (r : RunState) : (s.setRunState r).output = s.output := rfl
@[simp] theorem setRunState_cfg (r : RunState) : (s.setRunState r).cfg = s.cfg := rfl
@[simp] theorem setRunState_getReg (r : RunState) (q : Reg) : (s.setRunState r).getReg q = s.getReg q := rfl

@[simp] theorem setMemory_regs (m : Memory) : (s.setMemory m).regs = s.regs := rfl
@[simp] theorem setMemory_pc (m : Memory) : (s.setMemory m).pc = s.pc := rfl
@[simp] theorem setMemory_runState (m : Memory) : (s.setMemory m).runState = s.runState := rfl
@[simp] theorem setMemory_memory (m : Memory) : (s.setMemory m).memory = m := rfl
@[simp] theorem setMemory_input (m : Memory) : (s.setMemory m).input = s.input := rfl
@[simp] theorem setMemory_output (m : Memory) : (s.setMemory m).output = s.output := rfl
@[simp] theorem setMemory_cfg (m : Memory) : (s.setMemory m).cfg = s.cfg := rfl
@[simp] theorem setMemory_getReg (m : Memory) (q : Reg) : (s.setMemory m).getReg q = s.getReg q := rfl

@[simp] theorem setInput_regs (l : List InputResponse) : (s.setInput l).regs = s.regs := rfl
@[simp] theorem setInput_pc (l : List InputResponse) : (s.setInput l).pc = s.pc := rfl
@[simp] theorem setInput_runState (l : List InputResponse) : (s.setInput l).runState = s.runState := rfl
@[simp] theorem setInput_memory (l : List InputResponse) : (s.setInput l).memory = s.memory := rfl
@[simp] theorem setInput_input (l : List InputResponse) : (s.setInput l).input = l := rfl
@[simp] theorem setInput_output (l : List InputResponse) : (s.setInput l).output = s.output := rfl
@[simp] theorem setInput_cfg (l : List InputResponse) : (s.setInput l).cfg = s.cfg := rfl
@[simp] theorem setInput_getReg (l : List InputResponse) (q : Reg) : (s.setInput l).getReg q = s.getReg q := rfl

@[simp] theorem advance_regs : s.advance.regs = s.regs := rfl
@[simp] theorem advance_pc : s.advance.pc = add32 s.pc 1#32 := rfl
@[simp] theorem advance_runState : s.advance.runState = s.runState := rfl
@[simp] theorem advance_memory : s.advance.memory = s.memory := rfl
@[simp] theorem advance_input : s.advance.input = s.input := rfl
@[simp] theorem advance_output : s.advance.output = s.output := rfl
@[simp] theorem advance_cfg : s.advance.cfg = s.cfg := rfl
@[simp] theorem advance_getReg (q : Reg) : s.advance.getReg q = s.getReg q := rfl

@[simp] theorem takeFault_regs (k : FaultKind) : (s.takeFault k).regs = s.regs := rfl
@[simp] theorem takeFault_pc (k : FaultKind) : (s.takeFault k).pc = s.pc := rfl
@[simp] theorem takeFault_runState (k : FaultKind) : (s.takeFault k).runState = .faulted k s.pc s.instrWord := rfl
@[simp] theorem takeFault_memory (k : FaultKind) : (s.takeFault k).memory = s.memory := rfl
@[simp] theorem takeFault_input (k : FaultKind) : (s.takeFault k).input = s.input := rfl
@[simp] theorem takeFault_output (k : FaultKind) : (s.takeFault k).output = s.output := rfl
@[simp] theorem takeFault_cfg (k : FaultKind) : (s.takeFault k).cfg = s.cfg := rfl
@[simp] theorem takeFault_getReg (k : FaultKind) (q : Reg) : (s.takeFault k).getReg q = s.getReg q := rfl

@[simp] theorem endProgram_regs : s.endProgram.regs = s.regs := rfl
@[simp] theorem endProgram_pc : s.endProgram.pc = s.pc := rfl
@[simp] theorem endProgram_runState : s.endProgram.runState = .halted .endOfProgram := rfl
@[simp] theorem endProgram_memory : s.endProgram.memory = s.memory := rfl
@[simp] theorem endProgram_input : s.endProgram.input = s.input := rfl
@[simp] theorem endProgram_output : s.endProgram.output = s.output := rfl
@[simp] theorem endProgram_cfg : s.endProgram.cfg = s.cfg := rfl
@[simp] theorem endProgram_getReg (q : Reg) : s.endProgram.getReg q = s.getReg q := rfl

@[simp] theorem deliver_regs (b : Byte) : (s.deliver b).regs = s.regs := rfl
@[simp] theorem deliver_pc (b : Byte) : (s.deliver b).pc = s.pc := rfl
@[simp] theorem deliver_runState (b : Byte) : (s.deliver b).runState = s.runState := rfl
@[simp] theorem deliver_memory (b : Byte) : (s.deliver b).memory = s.memory := rfl
@[simp] theorem deliver_input (b : Byte) : (s.deliver b).input = s.input := rfl
@[simp] theorem deliver_output (b : Byte) : (s.deliver b).output = s.output ++ [b] := rfl
@[simp] theorem deliver_cfg (b : Byte) : (s.deliver b).cfg = s.cfg := rfl
@[simp] theorem deliver_getReg (b : Byte) (q : Reg) : (s.deliver b).getReg q = s.getReg q := rfl

@[simp] theorem hostAnswers_regs (a : InputResponse) : (s.hostAnswers a).regs = s.regs := rfl
@[simp] theorem hostAnswers_pc (a : InputResponse) : (s.hostAnswers a).pc = s.pc := rfl
@[simp] theorem hostAnswers_runState (a : InputResponse) : (s.hostAnswers a).runState = s.runState := rfl
@[simp] theorem hostAnswers_memory (a : InputResponse) : (s.hostAnswers a).memory = s.memory := rfl
@[simp] theorem hostAnswers_input (a : InputResponse) : (s.hostAnswers a).input = s.input ++ [a] := rfl
@[simp] theorem hostAnswers_output (a : InputResponse) : (s.hostAnswers a).output = s.output := rfl
@[simp] theorem hostAnswers_cfg (a : InputResponse) : (s.hostAnswers a).cfg = s.cfg := rfl
@[simp] theorem hostAnswers_getReg (a : InputResponse) (q : Reg) : (s.hostAnswers a).getReg q = s.getReg q := rfl

@[simp] theorem faultedBy_instrWord (k : FaultKind) : s.faultedBy k s.instrWord = s.takeFault k := rfl

/-- The increment of the program counter, as an addition of words (00_scope.md R8). -/
theorem add32_eq (a b : Word) : add32 a b = a + b := by
  simp [add32, BitVec.ofNat_add]

theorem add32_toNat (a b : Word) : (add32 a b).toNat = (a.toNat + b.toNat) % 2 ^ 32 := by
  simp [add32]

theorem mul32_toNat (a b : Word) : (mul32 a b).toNat = a.toNat * b.toNat % 2 ^ 32 := by
  simp [mul32]

/-- The quotient is at most the dividend, so nothing is lost in narrowing (42_arithmetic_logic.md R132). -/
theorem div32_toNat (a b : Word) : (div32 a b).toNat = a.toNat / b.toNat := by
  have h := Nat.div_le_self a.toNat b.toNat
  simp only [div32, BitVec.toNat_ofNat]
  exact Nat.mod_eq_of_lt (by omega)

/-- `~a = 2^32 - 1 - a` (00_scope.md R8). -/
theorem nand32_toNat (a b : Word) : (nand32 a b).toNat = 2 ^ 32 - 1 - (a &&& b).toNat := by
  simp [nand32, BitVec.toNat_not]

theorem zextImm_toNat (imm : Nat) : (zextImm imm).toNat = imm % immBound := by
  simp only [zextImm, BitVec.toNat_setWidth, BitVec.toNat_ofNat, immBound]
  omega

/-- An answer's register value is a byte's value or all ones (44_io.md R151). -/
@[simp] theorem value_byte_toNat (v : Byte) : (InputResponse.byte v).value.toNat = v.toNat := by
  have := v.isLt
  simp only [InputResponse.value, BitVec.toNat_setWidth]
  omega

/-- The free exit status after a fault is not zero (10_state.md R40). -/
theorem exitFault_ne_zero : Config.exitFault ≠ 0#32 := by
  intro h
  have := congrArg BitVec.toNat h
  simp only [Config.exitFault, BitVec.toNat_ofNat] at this
  omega

end Sys2Proof.Machine
end

