-- ==== Sys2Proof/Laws/Exec.lean ====
section
/-! SUPPORT. What each shared operation of a step can answer, and one inversion lemma for each meaning that has more
than one ending: if it answers `next t`, then one of these cases holds. -/

namespace Sys2Proof.Machine

/-- A store operation's result is followed by its fault taken, or by what comes next. -/
theorem orFault_eq_next {α : Type} {s t : State} {r : Except FaultKind α} {f : α → StepResult} :
    s.orFault r f = .next t ↔ (∃ k, r = .error k ∧ t = s.takeFault k) ∨ ∃ v, r = .ok v ∧ f v = .next t := by
  cases r <;> simp [State.orFault, eq_comm (b := t)]

@[simp] theorem orFault_ok {α : Type} (s : State) (v : α) (f : α → StepResult) :
    s.orFault (.ok v) f = f v := rfl

@[simp] theorem orFault_error {α : Type} (s : State) (k : FaultKind) (f : α → StepResult) :
    s.orFault (.error k) f = .next (s.takeFault k) := rfl

theorem condHolds_iff {v : Word} : condHolds v = true ↔ v ≠ 0#32 := by simp [condHolds]

/-! ## The meanings with more than one ending -/

section
variable {a b c : Reg} {s t : State}

theorem execCmov_eq_next : execCmov a b c s = .next t ↔
    (s.getReg c ≠ 0#32 ∧ t = s.advance.setReg a (s.getReg b)) ∨ (s.getReg c = 0#32 ∧ t = s.advance) := by
  unfold execCmov
  by_cases h : s.getReg c = 0#32 <;> simp [condHolds, h, eq_comm (b := t)]

theorem execSload_eq_next : execSload a b c s = .next t ↔
    (∃ k, s.memory.read (s.getReg b) (s.getReg c) = .error k ∧ t = s.takeFault k) ∨
      ∃ v, s.memory.read (s.getReg b) (s.getReg c) = .ok v ∧ t = s.advance.setReg a v := by
  simp only [execSload, orFault_eq_next, Host.Outcome.next.injEq, eq_comm (b := t)]

theorem execSstore_eq_next : execSstore a b c s = .next t ↔
    (∃ k, s.memory.write (s.getReg a) (s.getReg b) (s.getReg c) = .error k ∧ t = s.takeFault k) ∨
      ∃ m, s.memory.write (s.getReg a) (s.getReg b) (s.getReg c) = .ok m ∧ t = s.advance.setMemory m := by
  simp only [execSstore, orFault_eq_next, Host.Outcome.next.injEq, eq_comm (b := t)]

theorem execDiv_eq_next : execDiv a b c s = .next t ↔
    (s.getReg c = 0#32 ∧ t = s.takeFault .divideByZero) ∨
      (s.getReg c ≠ 0#32 ∧ t = writeBinary div32 a b c s) := by
  unfold execDiv
  by_cases h : s.getReg c = 0#32 <;> simp [h, eq_comm (b := t)]

theorem execMap_eq_next : execMap b c s = .next t ↔
    (∃ k, s.memory.allocate s.cfg (s.getReg c) = .error k ∧ t = s.takeFault k) ∨
      ∃ h m, s.memory.allocate s.cfg (s.getReg c) = .ok (h, m) ∧
        t = (s.advance.setMemory m).setReg b (BitVec.ofNat 32 h) := by
  simp only [execMap, orFault_eq_next, Host.Outcome.next.injEq, eq_comm (b := t), Prod.exists]

theorem execUnmap_eq_next : execUnmap c s = .next t ↔
    (∃ k, s.memory.free (s.getReg c) = .error k ∧ t = s.takeFault k) ∨
      ∃ m, s.memory.free (s.getReg c) = .ok m ∧ t = s.advance.setMemory m := by
  simp only [execUnmap, orFault_eq_next, Host.Outcome.next.injEq, eq_comm (b := t)]

theorem execOut_eq_next : execOut c s = .next t ↔
    (255 < (s.getReg c).toNat ∧ t = s.takeFault .outputRange) ∨
      ((s.getReg c).toNat ≤ 255 ∧ t = s.advance.deliver ((s.getReg c).setWidth 8)) := by
  unfold execOut
  by_cases h : 255 < (s.getReg c).toNat
  · simp [h, Nat.not_le.mpr h, eq_comm (b := t)]
  · simp [h, Nat.le_of_not_lt h, eq_comm (b := t)]

theorem execInp_eq_next : execInp c s = .next t ↔
    (s.input = [] ∧ t = s) ∨
      ∃ r rest, s.input = r :: rest ∧ t = (s.advance.setInput rest).setReg c r.value := by
  unfold execInp
  cases h : s.input <;> simp [eq_comm (b := t)]

theorem execLoadp_eq_next : execLoadp b c s = .next t ↔
    (∃ k, s.memory.loadProgram s.cfg (s.getReg b) (s.getReg c) = .error k ∧ t = s.takeFault k) ∨
      ∃ m, s.memory.loadProgram s.cfg (s.getReg b) (s.getReg c) = .ok m ∧
        t = (s.setMemory m).setPc (s.getReg c) := by
  simp only [execLoadp, orFault_eq_next, Host.Outcome.next.injEq, eq_comm (b := t)]

end

/-! ## The fetch and the step -/

/-- The fetch finds a word exactly when `pc` is inside segment 0, and it is the word there (R101, R102). -/
theorem fetch_eq_word {s : State} {w : Word} : s.fetch = .word w ↔ s.memory.read 0#32 s.pc = .ok w := by
  unfold State.fetch State.instrWord
  cases hg : s.memory.liveSeg 0 with
  | none => simp [Memory.progLen, Memory.read, hg]
  | some g =>
    have hp := Memory.progLen_of_live hg
    rw [hp]
    by_cases h0 : g.len = 0
    · simp [h0, Memory.read, hg]
    · by_cases h1 : g.len ≤ s.pc.toNat <;> simp [h0, h1, Memory.read, hg]

theorem fetch_eq_endOfProgram {s : State} :
    s.fetch = .endOfProgram ↔ s.memory.progLen ≠ 0 ∧ s.memory.progLen ≤ s.pc.toNat := by
  unfold State.fetch
  by_cases h0 : s.memory.progLen = 0
  · simp [h0]
  · by_cases h1 : s.memory.progLen ≤ s.pc.toNat <;> simp [h0, h1]

theorem fetch_eq_noProgram {s : State} : s.fetch = .noProgram ↔ s.memory.progLen = 0 := by
  unfold State.fetch
  by_cases h0 : s.memory.progLen = 0
  · simp [h0]
  · by_cases h1 : s.memory.progLen ≤ s.pc.toNat <;> simp [h0, h1]

/-- A word at `(0, pc)` lies inside segment 0. -/
theorem lt_progLen_of_read {m : Memory} {p w : Word} (h : m.read 0#32 p = .ok w) : p.toNat < m.progLen := by
  obtain ⟨g, hg, ho, -⟩ := Memory.read_ok.mp h
  rw [Memory.progLen_of_live (by simpa using hg)]
  exact ho

theorem instrWord_of_read {s : State} {w : Word} (h : s.memory.read 0#32 s.pc = .ok w) : s.instrWord = w := by
  simp [State.instrWord, h]

/-- Everything one step can answer. -/
theorem step_cases (s : State) :
    (∃ c, s.runState = .halted c ∧ step s = .fault .runHalted) ∨
    (∃ k p w, s.runState = .faulted k p w ∧ step s = .fault .runFaulted) ∨
    (s.runState = .running ∧ s.memory.progLen = 0 ∧ step s = .refused .noProgram) ∨
    (s.runState = .running ∧ s.memory.progLen ≠ 0 ∧ s.memory.progLen ≤ s.pc.toNat ∧ step s = .next s.endProgram) ∨
    (∃ w, s.runState = .running ∧ s.memory.read 0#32 s.pc = .ok w ∧ step s = exec (decode w) s) := by
  unfold step
  cases hr : s.runState with
  | halted c => exact .inl ⟨c, rfl, rfl⟩
  | faulted k p w => exact .inr (.inl ⟨k, p, w, rfl, rfl⟩)
  | running =>
    refine .inr (.inr ?_)
    cases hf : s.fetch with
    | noProgram => exact .inl ⟨rfl, fetch_eq_noProgram.mp hf, rfl⟩
    | endOfProgram => exact .inr (.inl ⟨rfl, (fetch_eq_endOfProgram.mp hf).1, (fetch_eq_endOfProgram.mp hf).2, rfl⟩)
    | word w => exact .inr (.inr ⟨w, rfl, fetch_eq_word.mp hf, rfl⟩)

/-- When a step answers `next t`: the program's end, or the fetched word's instruction. -/
theorem step_eq_next {s t : State} (h : step s = .next t) :
    s.runState = .running ∧
      ((s.memory.progLen ≠ 0 ∧ s.memory.progLen ≤ s.pc.toNat ∧ t = s.endProgram) ∨
        ∃ w, s.memory.read 0#32 s.pc = .ok w ∧ exec (decode w) s = .next t) := by
  rcases step_cases s with ⟨_, _, h'⟩ | ⟨_, _, _, _, h'⟩ | ⟨_, _, h'⟩ | ⟨hr, h0, h1, h'⟩ | ⟨w, hr, hw, h'⟩
  · rw [h] at h'; exact absurd h' (by simp)
  · rw [h] at h'; exact absurd h' (by simp)
  · rw [h] at h'; exact absurd h' (by simp)
  · rw [h] at h'; exact ⟨hr, .inl ⟨h0, h1, by simpa using h'⟩⟩
  · rw [h] at h'; exact ⟨hr, .inr ⟨w, hw, h'.symm⟩⟩

end Sys2Proof.Machine
end

