-- ==== Sys2Proof/Tests/Slice0.lean ====
section
/-! SUPPORT. The model's own tests: the smoke test of WellFormed, a hand-written word for every constructor, one or two
steps of every instruction, and a witness for every statement that has hypotheses. Expected results come from
95_test_vectors.md (named at each test) or from the rule cited; none is the model's own answer. -/

namespace Sys2Proof.Machine.Tests

/-! ## WellFormed -/

/-- 30_encoding.md R85: an immediate of more than 25 bits is no instruction. -/
theorem test_wellFormed_refuses_wide_immediate : ¬ (Instr.lv 1 0x02000000).WellFormed := by decide

theorem test_wellFormed_accepts_largest_immediate : (Instr.lv 1 0x01FFFFFF).WellFormed := by decide

/-! ## Decoding, by words written out field by field (30_encoding.md R81, R82, R88): op, 19 unused bits, A, B, C -/

theorem test_decode_cmov : decode 0b00000000000000000000000001010011#32 = .cmov 1 2 3 := by decide
theorem test_decode_sload : decode 0b00010000000000000000000101010100#32 = .sload 5 2 4 := by decide
theorem test_decode_sstore : decode 0b00100000000000000000000010100011#32 = .sstore 2 4 3 := by decide
theorem test_decode_add_ignored_bits_set : decode 0b00111111111111111111111001010011#32 = .add 1 2 3 := by decide
theorem test_decode_mul : decode 0b01000000000000000000000001001010#32 = .mul 1 1 2 := by decide
theorem test_decode_div : decode 0b01010000000000000000000011001010#32 = .div 3 1 2 := by decide
theorem test_decode_nand : decode 0b01100000000000000000000111110110#32 = .nand 7 6 6 := by decide
theorem test_decode_halt_ignored_bits_set : decode 0b01111111111111111111111111111111#32 = .halt := by decide
theorem test_decode_map_ignores_A : decode 0b10000000000000000000000111110001#32 = .map 6 1 := by decide
theorem test_decode_unmap : decode 0b10010000000000000000000000000010#32 = .unmap 2 := by decide
theorem test_decode_out : decode 0b10100000000000000000000000000111#32 = .out 7 := by decide
theorem test_decode_inp : decode 0b10110000000000000000000000000010#32 = .inp 2 := by decide
theorem test_decode_loadp : decode 0b11000000000000000000000000101110#32 = .loadp 5 6 := by decide
theorem test_decode_lv : decode 0b11010010000000000000000001001000#32 = .lv 1 72 := by decide
theorem test_decode_invalid14 : decode 0b11100000000000000000000000000101#32 = .invalid14 5 := by decide
theorem test_decode_invalid15 : decode 0b11111111111111111111111111111111#32 = .invalid15 0x0FFFFFFF := by decide

/-- A table row of 32 bits; nothing is longer. -/
theorem test_decodeTableWord : decodeTableWord 32 0x50000000 = some (.div 0 0 0) ∧ decodeTableWord 48 0 = none := by
  decide

/-! ## One step of every instruction -/

/-- Segment 0 of the vectors of 95_test_vectors.md part 2: the word under test and seven zero words. -/
def prog (w : Word) : Slot := .live (Segment.ofWords [w, 0, 0, 0, 0, 0, 0, 0])

def seg (ws : List Word) : Slot := .live (Segment.ofWords ws)

/-- The start state of the vectors: segment 0, the further slots, the registers. -/
def start (w : Word) (more : List Slot) (regs : RegFile) : State :=
  { State.reset with memory := { slots := prog w :: more }, regs := regs }

def after (s : State) : Option State :=
  match step s with
  | .next t => some t
  | .fault _ => none
  | .refused _ => none

def reg (o : Option State) (r : Reg) : Option Word := o.map (·.getReg r)

def run (o : Option State) : Option RunState := o.map (·.runState)

/-- The value the vectors preset a destination to. -/
def sentinel : Word := 0xDEADBEEF#32

/-- Vectors "cond non-zero" and "A=C, cond non-zero" of conditional-move. -/
theorem test_cmov_moves : reg (after (start 0x00000053 [] #v[0, 5, 9, 1, 0, 0, 0, 0])) 1 = some 9 := by decide

theorem test_cmov_A_is_C : reg (after (start 0x000000D3 [] #v[0, 0, 9, 1, 0, 0, 0, 0])) 3 = some 9 := by decide

/-- Vectors "A=B" and "offset = length" of segment-load. -/
theorem test_sload_A_is_B : reg (after (start 0x10000093 [seg [7, 8, 9]] #v[0, 0, 1, 0, 0, 0, 0, 0])) 2 = some 7 := by
  decide

theorem test_sload_offset_is_length : run (after (start 0x10000053 [seg [7, 8, 9]] #v[0, 5, 1, 3, 0, 0, 0, 0])) =
    some (.faulted .segBadOffset 0 0x10000053) := by decide

/-- Vectors "in bounds" and "reclaimed handle" of segment-store. -/
theorem test_sstore_in_bounds : (after (start 0x20000053 [seg [7, 8, 9]] #v[0, 1, 0, 0x2A, 0, 0, 0, 0])).map (·.memory) =
    some { slots := [prog 0x20000053, seg [0x2A, 8, 9]] } := by decide

theorem test_sstore_reclaimed : run (after (start 0x20000053 [.reclaimed] #v[0, 1, 0, 0x2A, 0, 0, 0, 0])) =
    some (.faulted .segBadHandle 0 0x20000053) := by decide

/-- Vectors "wrap (source example)" and "A=B=C doubles" of add. -/
theorem test_add_wraps : reg (after (start 0x30000053 [] #v[0, sentinel, 0xFFFFFFFF, 2, 0, 0, 0, 0])) 1 = some 1 := by
  decide

theorem test_add_doubles : reg (after (start 0x3000016D [] #v[0, 0, 0, 0, 0, 0x80000001, 0, 0])) 5 = some 2 := by decide

/-- Vectors "0xFFFFFFFF squared" and "6 x 7" of multiply. -/
theorem test_mul_wraps : reg (after (start 0x40000053 [] #v[0, sentinel, 0xFFFFFFFF, 0xFFFFFFFF, 0, 0, 0, 0])) 1 =
    some 1 := by decide

theorem test_mul : reg (after (start 0x40000053 [] #v[0, sentinel, 6, 7, 0, 0, 0, 0])) 1 = some 0x2A := by decide

/-- Vectors "0x80000000 / 0xFFFFFFFF (unsigned)" and "by zero" of divide. -/
theorem test_div_unsigned : reg (after (start 0x50000053 [] #v[0, sentinel, 0x80000000, 0xFFFFFFFF, 0, 0, 0, 0])) 1 =
    some 0 := by decide

theorem test_div_by_zero : after (start 0x50000053 [] #v[0, 5, 7, 0, 0, 0, 0, 0]) =
    some { start 0x50000053 [] #v[0, 5, 7, 0, 0, 0, 0, 0] with
      runState := .faulted .divideByZero 0 0x50000053 } := by decide

/-- Vectors "mixed" and "all ones (source example)" of nand. -/
theorem test_nand_mixed : reg (after (start 0x60000053 [] #v[0, sentinel, 0xFF00FF00, 0x0FF00FF0, 0, 0, 0, 0])) 1 =
    some 0xF0FFF0FF := by decide

theorem test_nand_all_ones : reg (after (start 0x60000053 [] #v[0, sentinel, 0xFFFFFFFF, 0xFFFFFFFF, 0, 0, 0, 0])) 1 =
    some 0 := by decide

/-- Vector "ignored bits set" of halt. -/
theorem test_halt : (after (start 0x7FFFFFFF [] #v[0, 0, 0, 0, 0, 0, 0, 0])).map (fun t => (t.pc, t.runState)) =
    some (1, .halted .haltInstruction) := by decide

/-- Vectors "reuse lowest reclaimed" and "B=C" of map-segment. -/
theorem test_map_lowest : (after (start 0x80000013 [.reclaimed, seg [5], .reclaimed] #v[0, 0, sentinel, 1, 0, 0, 0, 0])).map
    (fun t => (t.getReg 2, t.memory)) = some (1, { slots := [prog 0x80000013, seg [0], seg [5], .reclaimed] }) := by
  decide

theorem test_map_B_is_C : (after (start 0x8000001B [] #v[0, 0, 0, 4, 0, 0, 0, 0])).map
    (fun t => (t.getReg 3, t.memory.slots.tail)) = some (1, [seg [0, 0, 0, 0]]) := by decide

/-- Vectors "live handle" and "handle 0" of unmap-segment. -/
theorem test_unmap : (after (start 0x90000003 [seg [5, 6]] #v[0, 0, 0, 1, 0, 0, 0, 0])).map (·.memory.slots.tail) =
    some [.reclaimed] := by decide

theorem test_unmap_zero : run (after (start 0x90000003 [] #v[0, 0, 0, 0, 0, 0, 0, 0])) =
    some (.faulted .unmapInvalid 0 0x90000003) := by decide

/-- Vectors "255" and "256" of output. -/
theorem test_out_255 : (after (start 0xA0000001 [] #v[0, 255, 0, 0, 0, 0, 0, 0])).map (·.output) = some [0xFF] := by
  decide

theorem test_out_256 : (after (start 0xA0000001 [] #v[0, 256, 0, 0, 0, 0, 0, 0])).map (fun t => (t.output, t.runState)) =
    some ([], .faulted .outputRange 0 0xA0000001) := by decide

/-- Vectors "byte 0xFF" and "end of input" of input. -/
theorem test_inp_byte : reg (after ((start 0xB0000002 [] #v[0, 0, 7, 0, 0, 0, 0, 0]).hostAnswers (.byte 0xFF))) 2 =
    some 0xFF := by decide

theorem test_inp_end : reg (after ((start 0xB0000002 [] #v[0, 0, 7, 0, 0, 0, 0, 0]).hostAnswers .endOfInput)) 2 =
    some 0xFFFFFFFF := by decide

/-- Vectors "B=C=1" and "copy, target valid before but >= new length" of load-program. -/
theorem test_loadp_copies : (after (start 0xC0000012 [seg [1, 2, 3]] #v[0, 0, 1, 0, 0, 0, 0, 0])).map
    (fun t => (t.pc, t.memory)) = some (1, { slots := [seg [1, 2, 3], seg [1, 2, 3]] }) := by decide

theorem test_loadp_new_length : after (start 0xC0000013 [seg [0x70000000, 0xD2000048]] #v[0, 0, 1, 2, 0, 0, 0, 0]) =
    some { start 0xC0000013 [seg [0x70000000, 0xD2000048]] #v[0, 0, 1, 2, 0, 0, 0, 0] with
      runState := .faulted .loadpBadTarget 0 0xC0000013 } := by decide

/-- Vectors "all-ones immediate (source example)" and "imm low bits look like A/B/C" of load-value. -/
theorem test_lv_all_ones : reg (after (start 0xDFFFFFFF [] #v[0, 0, 0, 0, 0, 0, 0, 5])) 7 = some 0x01FFFFFF := by decide

theorem test_lv_low_bits : reg (after (start 0xD00001FF [] #v[sentinel, 0, 0, 0, 0, 0, 0, 0])) 0 = some 0x1FF := by
  decide

/-- Vectors "opcode 14" and "opcode 15, all bits set" of decode. -/
theorem test_invalid14 : run (after (start 0xE0000000 [] #v[0, 1, 0, 0, 0, 0, 0, 0])) =
    some (.faulted .invalidOpcode 0 0xE0000000) := by decide

theorem test_invalid15 : run (after (start 0xFFFFFFFF [] #v[0, 0, 0, 0, 0, 0, 0, 0])) =
    some (.faulted .invalidOpcode 0 0xFFFFFFFF) := by decide

/-- The end-of-program vector of 95_test_vectors.md. -/
def atEnd : State := { State.reset with memory := { slots := [seg [0x30000053]] }, pc := 1 }

theorem test_end_of_program : after atEnd = some { atEnd with runState := .halted .endOfProgram } := by decide

/-- The allocator rows "hwm = MAX_SLOTS" (with a small parameter, as D8 allows) and "MEM_CAPACITY = 10". -/
def small (cap : Option Nat) (slots : Nat) (n : Word) : State :=
  { start 0x80000013 [] #v[0, 0, 0, n, 0, 0, 0, 0] with
    cfg := { memCapacity := cap, maxSlots := slots, regReset := Vector.replicate 8 0 } }

theorem test_map_handles_exhausted : run (after (small none 1 1)) = some (.faulted .handleExhausted 0 0x80000013) := by
  decide

theorem test_map_memory_exhausted : run (after (small (some 10) 9 3)) = some (.faulted .memoryExhausted 0 0x80000013) := by
  decide

/-- 70_reset_and_hazards.md R203: `0xD2000048` as four file bytes. -/
theorem test_image_bytes : imageOfBytes [0xD2, 0x00, 0x00, 0x48] = some [0xD2000048] := by decide

/-- A word placed after reset is the one run: `LV r1, 72` (30_encoding.md R92). -/
theorem test_withFetchWord : reg (after (State.reset.withFetchWord 32 0xD2000048)) 1 = some 72 := by decide

/-! ## Witnesses: a state and operands that meet the hypotheses of each statement together, clause by clause -/

theorem witness_EncodeThenDecodeIsIdentity : (Instr.lv 7 0x01FFFFFF).WellFormed := by decide

theorem witness_IgnoredBitsHaveNoEffect :
    (bits 0x3FFFFE53#32 31 28 = bits 0x30000053#32 31 28 ∧ bits 0x3FFFFE53#32 8 0 = bits 0x30000053#32 8 0) ∧
    (bits 0x8FFFFFD3#32 31 28 = bits 0x80000013#32 31 28 ∧ bits 0x8FFFFFD3#32 5 0 = bits 0x80000013#32 5 0) ∧
    (bits 0xBFFFFFFA#32 31 28 = bits 0xB0000002#32 31 28 ∧ bits 0xBFFFFFFA#32 2 0 = bits 0xB0000002#32 2 0) ∧
    (bits 0xFFFFFFFF#32 31 28 = 15 ∧ bits 0xFFFFFFFF#32 27 0 = bits 0xFFFFFFFF#32 27 0) ∧
    bits 0x7FFFFFFF#32 31 28 = bits 0x70000000#32 31 28 := by decide

def s14 : State := start 0xE0000000 [] #v[0, 1, 0, 0, 0, 0, 0, 0]

theorem witness_InvalidOpcodesAreExactly14And15 : s14.runState = .running ∧
    s14.memory.read 0#32 s14.pc = .ok 0xE0000000#32 ∧ 13 < bits 0xE0000000#32 31 28 := ⟨rfl, rfl, by decide⟩

theorem witness_EncodingFormulas : 0x01FFFFFF ≤ 0x01FFFFFF := by decide

theorem witness_StepRunsTheDecodedInstruction : ∃ s : State, ∃ w, s.runState = .running ∧
    s.memory.read 0#32 s.pc = .ok w := ⟨start 0x70000000 [] #v[0, 0, 0, 0, 0, 0, 0, 0], 0x70000000#32, rfl, rfl⟩

theorem witness_PlacedWordIsTheOneRun : State.reset.memory.wf ∧ atEnd.memory.wf := by decide

theorem witness_EndOfProgramEndsTheRun : atEnd.runState = .running ∧ atEnd.booted ∧
    atEnd.memory.progLen ≤ atEnd.pc.toNat := by decide

theorem witness_EndedRunsTakeNoStep : (∃ t, step atEnd = .next t) ∧
    ({ atEnd with runState := .halted .endOfProgram } : State).runState = .halted .endOfProgram ∧
    ({ atEnd with runState := .faulted .outputRange 0 0 } : State).runState = .faulted .outputRange 0 0 :=
  ⟨⟨_, rfl⟩, rfl, rfl⟩

theorem witness_RunningMachineAlwaysSteps : s14.runState = .running ∧ s14.booted := by decide

theorem witness_EmptyImageIsRefused : State.reset.runState = .running ∧ State.reset.memory.progLen = 0 := by decide

/-- A state with a live segment 1 of three words and a reclaimed slot 2; `x[4]` is beyond `hwm`, `x[5]` reclaimed. -/
def segs : State := start 0x10000053 [seg [7, 8, 9], .reclaimed] #v[0, 1, 2, 3, 3, 2, 0, 0xFFFFFFFF]

/-- Last offset, then the handle's two ways to be bad, then the first offset too far. -/
theorem witness_SloadReadsTheWord :
    (segs.memory.liveSeg (segs.getReg 1).toNat = some (Segment.ofWords [7, 8, 9]) ∧
      (segs.getReg 2).toNat < (Segment.ofWords [7, 8, 9]).len) ∧
    segs.memory.hwm ≤ (segs.getReg 4).toNat ∧ segs.memory.inPool (segs.getReg 5).toNat = true ∧
    (segs.memory.liveSeg (segs.getReg 1).toNat = some (Segment.ofWords [7, 8, 9]) ∧
      (Segment.ofWords [7, 8, 9]).len ≤ (segs.getReg 3).toNat) := by decide

theorem witness_SstoreWritesTheWord : segs.memory.wf ∧
    (segs.memory.liveSeg (segs.getReg 1).toNat = some (Segment.ofWords [7, 8, 9]) ∧
      (segs.getReg 2).toNat < (Segment.ofWords [7, 8, 9]).len) ∧
    segs.memory.hwm ≤ (segs.getReg 4).toNat ∧ segs.memory.inPool (segs.getReg 5).toNat = true ∧
    (segs.memory.liveSeg (segs.getReg 1).toNat = some (Segment.ofWords [7, 8, 9]) ∧
      (Segment.ofWords [7, 8, 9]).len ≤ (segs.getReg 3).toNat) := by decide

theorem witness_DivIsUnsignedTruncating : segs.getReg 1 ≠ 0#32 ∧ segs.getReg 0 = 0#32 := by decide

/-- The pool of a store of one live slot is empty. -/
theorem poolEmpty_single (g : Segment) : PoolEmpty { slots := [.live g] } := by
  intro k
  cases k <;> simp [Memory.inPool]

/-- Capacity 10 with 8 live words: a segment of 2 fits exactly, one of 3 does not; with one slot no handle is left. -/
theorem witness_MapAllocatesASegment :
    ((small (some 10) 9 2).getReg 3 ≠ 0#32 ∧ HandleAvailable (small (some 10) 9 2).cfg (small (some 10) 9 2).memory ∧
      FitsCapacity (small (some 10) 9 2).cfg ((small (some 10) 9 2).memory.liveWords + 2)) ∧
    (small none 1 0).getReg 3 = 0#32 ∧
    ((small none 1 1).getReg 3 ≠ 0#32 ∧ ¬ HandleAvailable (small none 1 1).cfg (small none 1 1).memory) ∧
    ((small (some 10) 9 3).getReg 3 ≠ 0#32 ∧ HandleAvailable (small (some 10) 9 3).cfg (small (some 10) 9 3).memory ∧
      OverCapacity (small (some 10) 9 3).cfg ((small (some 10) 9 3).memory.liveWords + 3)) := by
  refine ⟨⟨by decide, .inr (by decide), fun cap h => ?_⟩, by decide, ⟨by decide, ?_⟩, by decide, .inr (by decide), 10,
    rfl, by decide⟩
  · cases h; decide
  · rintro (h | h)
    · exact h (poolEmpty_single _)
    · exact h (by decide)

theorem witness_UnmapReclaimsASegment :
    (segs.getReg 1 ≠ 0#32 ∧ segs.memory.liveSeg (segs.getReg 1).toNat = some (Segment.ofWords [7, 8, 9])) ∧
    segs.getReg 0 = 0#32 ∧ segs.memory.hwm ≤ (segs.getReg 4).toNat ∧
    segs.memory.inPool (segs.getReg 5).toNat = true := by decide

theorem witness_OutDeliversOneByte :
    ((start 0 [] #v[255, 256, 0, 0, 0, 0, 0, 0]).getReg 0).toNat ≤ 255 ∧
    255 < ((start 0 [] #v[255, 256, 0, 0, 0, 0, 0, 0]).getReg 1).toNat := by decide

def answered : State := (s14.hostAnswers (.byte 0xFF)).hostAnswers .endOfInput

theorem witness_InTakesTheHostsAnswer : answered.input = .byte 0xFF :: [.endOfInput] ∧
    (s14.hostAnswers .endOfInput).input = .endOfInput :: [] := by decide

def holding : State := start 0xB0000002 [] #v[0, 0, 7, 0, 0, 0, 0, 0]

theorem witness_InputHoldsUntilAnswered : holding.runState = .running ∧
    holding.memory.read 0#32 holding.pc = .ok 0xB0000002#32 ∧ decode 0xB0000002#32 = .inp 2 ∧ holding.input = [] :=
  ⟨rfl, rfl, by decide, rfl⟩

/-- Handle 0 with the last offset and with the length; a handle beyond `hwm` and a reclaimed one; a copy of 3 words over 8
with capacity for the live words after it, and one short of it; and its last offset and its length. -/
def tight (cap : Nat) : State :=
  { start 0xC0000013 [seg [7, 8, 9], .reclaimed] #v[0, 1, 2, 3, 7, 8, 3, 0] with
    cfg := { memCapacity := some cap, maxSlots := 9, regReset := Vector.replicate 8 0 } }

theorem witness_LoadpCopiesThenJumps :
    ((tight 6).getReg 0 = 0#32 ∧ ((tight 6).getReg 4).toNat < (tight 6).memory.progLen) ∧
    ((tight 6).getReg 0 = 0#32 ∧ (tight 6).memory.progLen ≤ ((tight 6).getReg 5).toNat) ∧
    ((tight 6).getReg 6 ≠ 0#32 ∧ NotLive (tight 6).memory ((tight 6).getReg 6).toNat) ∧
    ((tight 6).getReg 2 ≠ 0#32 ∧ NotLive (tight 6).memory ((tight 6).getReg 2).toNat) ∧
    ((tight 6).getReg 1 ≠ 0#32 ∧
      (tight 6).memory.liveSeg ((tight 6).getReg 1).toNat = some (Segment.ofWords [7, 8, 9])) ∧
    OverCapacity (tight 5).cfg ((tight 5).memory.liveWords - (tight 5).memory.progLen + 3) ∧
    FitsCapacity (tight 6).cfg ((tight 6).memory.liveWords - (tight 6).memory.progLen + 3) ∧
    (Segment.ofWords [7, 8, 9]).len ≤ ((tight 6).getReg 3).toNat ∧
    ((tight 6).getReg 2).toNat < (Segment.ofWords [7, 8, 9]).len := by
  refine ⟨by decide, by decide, ⟨by decide, .inl (by decide)⟩, ⟨by decide, .inr (by decide)⟩, by decide,
    ⟨5, rfl, by decide⟩, fun cap h => ?_, by decide, by decide⟩
  cases h
  decide

theorem witness_LvLoadsTheImmediate : 0x01FFFFFF ≤ 0x01FFFFFF := by decide

theorem witness_PseudoInstructionsWork :
    (segs.getReg 0 = 0#32 ∧ (segs.getReg 3).toNat < segs.memory.progLen) ∧ (tight 6).getReg 1 ≠ 0#32 ∧
    (tight 6).memory.liveSeg ((tight 6).getReg 1).toNat = some (Segment.ofWords [7, 8, 9]) ∧
    FitsCapacity (tight 6).cfg ((tight 6).memory.liveWords - (tight 6).memory.progLen + 3) ∧
    ((tight 6).getReg 2).toNat < (Segment.ofWords [7, 8, 9]).len :=
  ⟨by decide, by decide, by decide, witness_LoadpCopiesThenJumps.2.2.2.2.2.2.1, by decide⟩

theorem witness_MemReadChecksHandleThenOffset : NotLive segs.memory (3#32).toNat ∧ NotLive segs.memory (2#32).toNat ∧
    segs.memory.liveSeg (1#32).toNat = some (Segment.ofWords [7, 8, 9]) ∧
    (Segment.ofWords [7, 8, 9]).len ≤ (3#32).toNat ∧ (2#32).toNat < (Segment.ofWords [7, 8, 9]).len :=
  ⟨.inl (by decide), .inr (by decide), by decide, by decide, by decide⟩

theorem witness_MemWriteReplacesOneWord : segs.memory.wf ∧ NotLive segs.memory (3#32).toNat ∧
    segs.memory.liveSeg (1#32).toNat = some (Segment.ofWords [7, 8, 9]) ∧
    (Segment.ofWords [7, 8, 9]).len ≤ (3#32).toNat ∧ (2#32).toNat < (Segment.ofWords [7, 8, 9]).len :=
  ⟨by decide, .inl (by decide), by decide, by decide, by decide⟩

/-- The clauses are map-segment's, on the same states. -/
theorem witness_AllocateFollowsItsRule :
    HandleAvailable (small (some 10) 9 2).cfg (small (some 10) 9 2).memory ∧ (2#32 : Word) ≠ 0#32 ∧
    FitsCapacity (small (some 10) 9 2).cfg ((small (some 10) 9 2).memory.liveWords + 2) ∧
    OverCapacity (small (some 10) 9 3).cfg ((small (some 10) 9 3).memory.liveWords + 3) ∧
    ¬ HandleAvailable (small none 1 1).cfg (small none 1 1).memory :=
  ⟨witness_MapAllocatesASegment.1.2.1, by decide, witness_MapAllocatesASegment.1.2.2,
    witness_MapAllocatesASegment.2.2.2.2.2, witness_MapAllocatesASegment.2.2.1.2⟩

theorem witness_NewSegmentsReadZero : ∃ m', segs.memory.allocate Config.default 3#32 = .ok ((2#32 : Word).toNat, m') :=
  ⟨_, rfl⟩

theorem witness_LowestReclaimedHandleFirst : ∃ m₁ m₂, segs.memory.free 1#32 = .ok m₁ ∧
    (∀ j, j < (1#32 : Word).toNat → segs.memory.inPool j = false) ∧ m₁.allocate Config.default 3#32 = .ok (1, m₂) :=
  ⟨_, _, rfl, by decide, rfl⟩

theorem witness_AllocatedHandleIsFresh : segs.wf ∧ ∃ m', segs.memory.allocate segs.cfg 3#32 = .ok (2, m') :=
  ⟨by decide, _, rfl⟩

theorem witness_FreeFollowsItsRule : segs.memory.hwm ≤ (3#32 : Word).toNat ∧
    segs.memory.inPool (2#32 : Word).toNat = true ∧ (1#32 : Word) ≠ 0#32 ∧
    segs.memory.liveSeg (1#32 : Word).toNat = some (Segment.ofWords [7, 8, 9]) := by decide

theorem witness_FreedContentsAreGone : ∃ m₁ m₂, segs.memory.free 1#32 = .ok m₁ ∧
    m₁.allocate Config.default 3#32 = .ok ((1#32 : Word).toNat, m₂) ∧ (2#32 : Word).toNat < (3#32 : Word).toNat :=
  ⟨_, _, rfl, rfl, by decide⟩

theorem witness_DupIntoZeroFollowsItsRule : NotLive segs.memory (2#32 : Word).toNat ∧ (2#32 : Word) ≠ 0#32 ∧
    OverCapacity (tight 5).cfg ((tight 5).memory.liveWords - (tight 5).memory.progLen + 3) ∧
    FitsCapacity (tight 6).cfg ((tight 6).memory.liveWords - (tight 6).memory.progLen + 3) ∧
    (tight 6).memory.liveSeg (1#32 : Word).toNat = some (Segment.ofWords [7, 8, 9]) :=
  ⟨.inr (by decide), by decide, witness_LoadpCopiesThenJumps.2.2.2.2.2.1, witness_LoadpCopiesThenJumps.2.2.2.2.2.2.1,
    by decide⟩

theorem witness_CopiedSegmentsAreIndependent : segs.memory.wf ∧ ∃ m₁, segs.memory.dupIntoZero Config.default 1#32 = .ok m₁ ∧
    (∃ m₂, m₁.write 1#32 2#32 5#32 = .ok m₂) ∧ ∃ m₂, m₁.write 0#32 2#32 5#32 = .ok m₂ :=
  ⟨by decide, _, rfl, ⟨_, rfl⟩, _, rfl⟩

/-- The first clause on an allocation that fills the capacity, the second on one over it. -/
theorem witness_StepsKeepWithinCapacity :
    ((small (some 10) 9 2).wf ∧ (small (some 10) 9 2).withinCapacity ∧ ∃ t, step (small (some 10) 9 2) = .next t) ∧
    ∃ t, step (small (some 10) 9 3) = .next t ∧ t.runState = .faulted .memoryExhausted 0 0x80000013 :=
  ⟨⟨by decide, by decide, _, rfl⟩, _, rfl, by decide⟩

theorem witness_StepsRespectSlotLifetimes : segs.wf ∧ (∃ t, step segs = .next t) ∧
    segs.memory.liveSeg 1 = some (Segment.ofWords [7, 8, 9]) ∧ 1 < segs.memory.hwm := ⟨by decide, ⟨_, rfl⟩, by decide⟩

/-- `SSTORE r3, r2, r1` at offset 0 stores a halt word at offset 1. -/
def patch : State := start 0x200000D1 [] #v[0, 0x70000000, 1, 0, 0, 0, 0, 0]

theorem witness_StoreIsFetchedByTheNextStep : patch.wf ∧ patch.runState = .running ∧
    patch.memory.read 0#32 patch.pc = .ok 0x200000D1#32 ∧ decode 0x200000D1#32 = .sstore 3 2 1 ∧
    patch.getReg 3 = 0#32 ∧ patch.getReg 2 = patch.pc + 1#32 ∧ (patch.pc + 1#32).toNat < patch.memory.progLen :=
  ⟨by decide, rfl, rfl, by decide, by decide, by decide, by decide⟩

theorem witness_StepKeepsTheInvariant : patch.wf ∧ ∃ t, step patch = .next t := ⟨by decide, _, rfl⟩

theorem witness_ReachableStatesMeetTheInvariant :
    Reachable (State.resetWith Config.default (Segment.ofWords [0x70000000])) :=
  .boot Config.default [0x70000000] _ (by decide) rfl

theorem witness_BootLeavesTheResetState : ([0x70000000] : List Word) ≠ [] ∧
    ([0x70000000] : List Word).length ≤ 4294967295 := by decide

theorem witness_ResetForgetsTheRun : ([] : List Word) = [] ∧ ([0x70000000] : List Word) ≠ [] ∧
    ([0x70000000] : List Word).length ≤ 4294967295 := by decide

theorem witness_ImageBytesAreBigEndian : imageOfBytes [0, 0, 0, 1, 0xD2, 0, 0, 0x48] = some [1, 0xD2000048] := by decide

/-- `DIV` by zero, for the statements about a step that ends in FAULTED. -/
def dividing : State := start 0x50000053 [] #v[0, 5, 7, 0, 0, 0, 0, 0]

theorem witness_FaultsArePreciseAndTerminal : ∃ t, step dividing = .next t ∧
    t.runState = .faulted .divideByZero 0 0x50000053 := ⟨_, rfl, by decide⟩

theorem witness_FaultKindsComeFromTheirInstructions : ∃ t, step dividing = .next t ∧
    t.runState = .faulted .divideByZero 0 0x50000053 := ⟨_, rfl, by decide⟩

theorem witness_OnlyTheDestinationRegisterChanges : (∃ t, exec (.add 1 2 3) segs = .next t) ∧
    destReg (.add 1 2 3) ≠ some 2 := ⟨⟨_, rfl⟩, by decide⟩

theorem witness_OnlyFourInstructionsChangeTheStore : (∃ t, exec (.inp 2) answered = .next t) ∧
    changesStore (.inp 2) = false := ⟨⟨_, rfl⟩, rfl⟩

theorem witness_ProgramCounterChangesInTwoWays : holding.wf ∧ (∃ t, step holding = .next t) ∧ patch.wf ∧
    ∃ t, step patch = .next t := ⟨by decide, ⟨_, rfl⟩, by decide, _, rfl⟩

theorem witness_ChannelsAreReachedOnlyByOutAndIn : (∃ t, exec (.out 0) segs = .next t) ∧
    ∃ t, exec (.inp 0) answered = .next t := ⟨⟨_, rfl⟩, _, rfl⟩

theorem witness_DeliveredBytesAreNotRead : ∃ t, step patch = .next t := ⟨_, rfl⟩

theorem witness_LaterAnswersAreNotRead : (∃ t, step (holding.hostAnswers .endOfInput) = .next t) ∧
    (holding.hostAnswers .endOfInput).awaitingInput = false := ⟨⟨_, rfl⟩, by decide⟩

def selfJump : State := start 0xC0000013 [] #v[0, 0, 0, 0, 0, 0, 0, 0]

theorem witness_SelfJumpRunsForever : selfJump.runState = .running ∧
    selfJump.memory.read 0#32 selfJump.pc = .ok 0xC0000013#32 ∧ decode 0xC0000013#32 = .loadp 2 3 ∧
    selfJump.getReg 2 = 0#32 ∧ selfJump.getReg 3 = selfJump.pc := ⟨rfl, rfl, by decide, by decide, by decide⟩

theorem witness_ExitStatusFollowsTheRunState : atEnd.runState = .running ∧
    ({ atEnd with runState := .halted .endOfProgram } : State).runState = .halted .endOfProgram ∧
    ({ atEnd with runState := .faulted .outputRange 0 0 } : State).runState = .faulted .outputRange 0 0 :=
  ⟨rfl, rfl, rfl⟩

theorem witness_RunEndsOnlyInThreeWays : ∃ t, step dividing = .next t ∧ t.runState ≠ .running := ⟨_, rfl, by decide⟩

theorem witness_StepKeepsTheBootedInvariant :
    (Config.default.wf ∧ ∃ s, State.boot Config.default [0x70000000] = .next s) ∧
    patch.wf ∧ patch.booted ∧ ∃ t, step patch = .next t := ⟨⟨by decide, _, rfl⟩, by decide, by decide, _, rfl⟩

end Sys2Proof.Machine.Tests
end

/-! PROOFS of the statements of 10_state.md. One inversion lemma says what an instruction's meaning can answer
(`Effect`, `exec_effect`); the invariant, the frames and the lifetimes of slots are read off its cases. That a step
reads neither the delivered bytes nor later answers is one equation on `exec` (`exec_extendChannels`). -/

namespace Sys2Proof.Machine

/-! ## What an instruction can do to the state -/

/-- Every ending that the meaning of instruction `i` has from state `s`, with the state it answers. -/
inductive Effect (i : Instr) (s : State) : State → Prop
  /-- 60_exceptions.md R175. -/
  | fault (k : FaultKind) (hk : raisedBy k i = true) : Effect i s (s.takeFault k)
  /-- An input request that the host has not answered (40_execution_cycle.md R108). -/
  | hold (c : Reg) (hi : i = .inp c) (hin : s.input = []) : Effect i s s
  /-- A conditional move whose condition is zero (R120). -/
  | skip (a b c : Reg) (hi : i = .cmov a b c) : Effect i s s.advance
  /-- A value is put into the destination register (10_state.md R21). -/
  | register (r : Reg) (v : Word) (hd : destReg i = some r) (hs : changesStore i = false) :
      Effect i s (s.advance.setReg r v)
  | halt (hi : i = .halt) : Effect i s (s.advance.setRunState (.halted .haltInstruction))
  | store (a b c : Reg) (m : Memory) (hi : i = .sstore a b c)
      (hm : s.memory.write (s.getReg a) (s.getReg b) (s.getReg c) = .ok m) : Effect i s (s.advance.setMemory m)
  | map (b c : Reg) (h : Nat) (m : Memory) (hi : i = .map b c)
      (hm : s.memory.allocate s.cfg (s.getReg c) = .ok (h, m)) :
      Effect i s ((s.advance.setMemory m).setReg b (BitVec.ofNat 32 h))
  | unmap (c : Reg) (m : Memory) (hi : i = .unmap c) (hm : s.memory.free (s.getReg c) = .ok m) :
      Effect i s (s.advance.setMemory m)
  | output (c : Reg) (hi : i = .out c) (hv : (s.getReg c).toNat ≤ 255) :
      Effect i s (s.advance.deliver ((s.getReg c).setWidth 8))
  | input (c : Reg) (r : InputResponse) (rest : List InputResponse) (hi : i = .inp c) (hin : s.input = r :: rest) :
      Effect i s ((s.advance.setInput rest).setReg c r.value)
  | loadProgram (b c : Reg) (m : Memory) (hi : i = .loadp b c)
      (hm : s.memory.loadProgram s.cfg (s.getReg b) (s.getReg c) = .ok m) :
      Effect i s ((s.setMemory m).setPc (s.getReg c))

section
variable {i : Instr} {s t : State} {k : FaultKind}

/-! The faults of the store operations belong to the instructions that call them (60_exceptions.md R170). -/

theorem raisedBy_sload_of_read {m : Memory} {h o : Word} (he : m.read h o = .error k) (a b c : Reg) :
    raisedBy k (.sload a b c) = true := by
  rcases Memory.read_error.mp he with ⟨-, rfl⟩ | ⟨_, -, -, rfl⟩ <;> rfl

theorem raisedBy_sstore_of_write {m : Memory} {h o v : Word} (he : m.write h o v = .error k) (a b c : Reg) :
    raisedBy k (.sstore a b c) = true := by
  rcases Memory.read_error.mp (Memory.write_error.mp he) with ⟨-, rfl⟩ | ⟨_, -, -, rfl⟩ <;> rfl

theorem raisedBy_map_of_allocate {cfg : Config} {m : Memory} {n : Word} (he : m.allocate cfg n = .error k)
    (b c : Reg) : raisedBy k (.map b c) = true := by
  rcases Memory.allocate_error.mp he with ⟨-, rfl⟩ | ⟨-, hc⟩ | ⟨-, -, -, rfl⟩
  · rfl
  · obtain ⟨rfl, -⟩ := Memory.chooseHandle_error.mp hc
    rfl
  · rfl

theorem raisedBy_unmap_of_free {m : Memory} {h : Word} (he : m.free h = .error k) (c : Reg) :
    raisedBy k (.unmap c) = true := by
  obtain ⟨-, rfl⟩ := Memory.free_error.mp he
  rfl

theorem raisedBy_loadp_of_loadProgram {cfg : Config} {m : Memory} {h o : Word}
    (he : m.loadProgram cfg h o = .error k) (b c : Reg) : raisedBy k (.loadp b c) = true := by
  rcases Memory.loadProgram_error.mp he with hd | ⟨_, -, -, rfl⟩
  · rcases Memory.dupIntoZero_error.mp hd with ⟨-, ⟨-, rfl⟩ | ⟨_, -, -, rfl⟩⟩ <;> rfl
  · rfl

/-- INVERSION of `exec`: what it answers is one of the endings. -/
theorem exec_effect (h : exec i s = .next t) : Effect i s t := by
  cases i with
  | cmov a b c =>
    rcases execCmov_eq_next.mp h with ⟨-, rfl⟩ | ⟨-, rfl⟩
    · exact .register a _ rfl rfl
    · exact .skip a b c rfl
  | sload a b c =>
    rcases execSload_eq_next.mp h with ⟨k, he, rfl⟩ | ⟨v, -, rfl⟩
    · exact .fault k (raisedBy_sload_of_read he a b c)
    · exact .register a v rfl rfl
  | sstore a b c =>
    rcases execSstore_eq_next.mp h with ⟨k, he, rfl⟩ | ⟨m, hm, rfl⟩
    · exact .fault k (raisedBy_sstore_of_write he a b c)
    · exact .store a b c m rfl hm
  | add a b c | mul a b c | nand a b c => cases h; exact .register a _ rfl rfl
  | div a b c =>
    rcases execDiv_eq_next.mp h with ⟨-, rfl⟩ | ⟨-, rfl⟩
    · exact .fault .divideByZero rfl
    · exact .register a _ rfl rfl
  | halt => cases h; exact .halt rfl
  | map b c =>
    rcases execMap_eq_next.mp h with ⟨k, he, rfl⟩ | ⟨n, m, hm, rfl⟩
    · exact .fault k (raisedBy_map_of_allocate he b c)
    · exact .map b c n m rfl hm
  | unmap c =>
    rcases execUnmap_eq_next.mp h with ⟨k, he, rfl⟩ | ⟨m, hm, rfl⟩
    · exact .fault k (raisedBy_unmap_of_free he c)
    · exact .unmap c m rfl hm
  | out c =>
    rcases execOut_eq_next.mp h with ⟨-, rfl⟩ | ⟨hv, rfl⟩
    · exact .fault .outputRange rfl
    · exact .output c rfl hv
  | inp c =>
    rcases execInp_eq_next.mp h with ⟨hin, rfl⟩ | ⟨r, rest, hin, rfl⟩
    · exact .hold c rfl hin
    · exact .input c r rest rfl hin
  | loadp b c =>
    rcases execLoadp_eq_next.mp h with ⟨k, he, rfl⟩ | ⟨m, hm, rfl⟩
    · exact .fault k (raisedBy_loadp_of_loadProgram he b c)
    · exact .loadProgram b c m rfl hm
  | lv a imm => cases h; exact .register a _ rfl rfl
  | invalid14 p | invalid15 p => cases h; exact .fault .invalidOpcode rfl

/-- INVERSION of `step`: the end of the program, or an effect of the word at `(0, pc)`, which lies inside segment 0. -/
theorem step_effect (h : step s = .next t) :
    (s.memory.progLen ≠ 0 ∧ t = s.endProgram) ∨
      ∃ w, s.memory.read 0#32 s.pc = .ok w ∧ Effect (decode w) s t := by
  rcases (step_eq_next h).2 with ⟨h0, -, rfl⟩ | ⟨w, hw, he⟩
  · exact .inl ⟨h0, rfl⟩
  · exact .inr ⟨w, hw, exec_effect he⟩

end

/-! ## What a store operation does to `hwm` and to the lengths of segments -/

section
variable {cfg : Config} {m m' : Memory}

/-- Below `hwm` a handle is live exactly when it is not in the pool (10_state.md R31). -/
theorem Memory.live_iff_not_inPool {k : Nat} (hk : k < m.hwm) :
    (∃ g, m.liveSeg k = some g) ↔ m.inPool k = false := by
  constructor
  · rintro ⟨g, hg⟩
    by_contra hp
    simp [Memory.liveSeg_of_inPool (by simpa using hp)] at hg
  · intro hp
    exact (Memory.live_or_inPool hk).resolve_right (by simp [hp])

/-- Segment `k`, when it is live in both stores, has one length in them (10_state.md R33). -/
def Memory.KeepsLength (k : Nat) (m m' : Memory) : Prop :=
  ∀ g g', m.liveSeg k = some g → m'.liveSeg k = some g' → g'.len = g.len

theorem Memory.KeepsLength.of_eq {k : Nat} (h : m'.liveSeg k = m.liveSeg k) : m.KeepsLength k m' := by
  intro g g' hg hg'
  rw [h, hg] at hg'
  cases hg'
  rfl

/-- Putting a slot at `h` keeps every length, if the segment at `h` is not live before or after, or has its length. -/
theorem Memory.keepsLength_putSlot {h : Nat} (hh : h ≤ m.hwm) {sl : Slot}
    (hsl : ∀ g g', m.liveSeg h = some g → sl.seg? = some g' → g'.len = g.len) (k : Nat) :
    m.KeepsLength k (m.putSlot h sl) := by
  by_cases hk : k = h
  · subst hk
    intro g g' hg hg'
    exact hsl g g' hg (by simpa [Memory.liveSeg_putSlot hh] using hg')
  · exact .of_eq (by rw [Memory.liveSeg_putSlot hh, if_neg hk])

theorem Memory.keepsLength_write {h o v : Word} (hw : m.write h o v = .ok m') (k : Nat) : m.KeepsLength k m' := by
  obtain ⟨g, hg, -, rfl⟩ := Memory.write_ok.mp hw
  refine Memory.keepsLength_putSlot (Memory.lt_hwm_of_live hg).le (fun g₁ g₂ h₁ h₂ => ?_) k
  obtain rfl : g = g₁ := by simpa [hg] using h₁
  cases h₂
  rfl

theorem Memory.keepsLength_allocate {n : Word} {h : Nat} (ha : m.allocate cfg n = .ok (h, m')) (k : Nat) :
    m.KeepsLength k m' := by
  obtain ⟨-, hc, -, rfl⟩ := Memory.allocate_ok.mp ha
  obtain ⟨hle, hfree⟩ := Memory.chooseHandle_le hc
  exact Memory.keepsLength_putSlot hle (fun g _ hg _ => by simp [hfree] at hg) k

theorem Memory.keepsLength_free {h : Word} (hf : m.free h = .ok m') (k : Nat) : m.KeepsLength k m' := by
  obtain ⟨-, ⟨g, hg⟩, rfl⟩ := Memory.free_ok.mp hf
  exact Memory.keepsLength_putSlot (Memory.lt_hwm_of_live hg).le (fun _ _ _ hr => by simp [Slot.seg?] at hr) k

theorem Memory.keepsLength_loadProgram {h o : Word} (hl : m.loadProgram cfg h o = .ok m') {k : Nat} (hk : k ≠ 0) :
    m.KeepsLength k m' := by
  rcases Memory.dupIntoZero_ok.mp (Memory.loadProgram_ok.mp hl).1 with ⟨-, rfl⟩ | ⟨-, g, -, -, rfl⟩
  · exact .of_eq rfl
  · exact .of_eq (by rw [Memory.liveSeg_putSlot (Nat.zero_le _), if_neg hk])

/-- `SegLen(0)` is one of the lengths that are kept. -/
theorem Memory.KeepsLength.progLen_eq (h : m.KeepsLength 0 m') (hm : m.wf) (hm' : m'.wf) : m'.progLen = m.progLen := by
  obtain ⟨g, hg⟩ := hm.zero_live
  obtain ⟨g', hg'⟩ := hm'.zero_live
  rw [Memory.progLen_of_live hg, Memory.progLen_of_live hg', h g g' hg hg']

theorem Memory.hwm_write {h o v : Word} (hw : m.write h o v = .ok m') : m'.hwm = m.hwm := by
  obtain ⟨g, hg, -, rfl⟩ := Memory.write_ok.mp hw
  exact Memory.hwm_putSlot_of_lt (Memory.lt_hwm_of_live hg) _

theorem Memory.hwm_free {h : Word} (hf : m.free h = .ok m') : m'.hwm = m.hwm := by
  obtain ⟨-, ⟨g, hg⟩, rfl⟩ := Memory.free_ok.mp hf
  exact Memory.hwm_putSlot_of_lt (Memory.lt_hwm_of_live hg) _

theorem Memory.hwm_loadProgram {h o : Word} (hl : m.loadProgram cfg h o = .ok m') : m'.hwm = m.hwm := by
  rcases Memory.dupIntoZero_ok.mp (Memory.loadProgram_ok.mp hl).1 with ⟨-, rfl⟩ | ⟨-, g, hg, -, rfl⟩
  · rfl
  · exact Memory.hwm_putSlot_of_lt (Nat.zero_lt_of_lt (Memory.lt_hwm_of_live hg)) _

theorem Memory.hwm_le_hwm_allocate {n : Word} {h : Nat} (ha : m.allocate cfg n = .ok (h, m')) : m.hwm ≤ m'.hwm := by
  obtain ⟨-, -, -, rfl⟩ := Memory.allocate_ok.mp ha
  rw [Memory.hwm_putSlot]
  split <;> omega

/-- The mark grows only while it is below `MAX_SLOTS` (20_memory.md R50). -/
theorem Memory.hwm_allocate_le_maxSlots {n : Word} {h : Nat} (ha : m.allocate cfg n = .ok (h, m'))
    (hmax : m.hwm ≤ cfg.maxSlots) : m'.hwm ≤ cfg.maxSlots := by
  obtain ⟨-, hc, -, rfl⟩ := Memory.allocate_ok.mp ha
  rcases Memory.chooseHandle_ok.mp hc with ⟨hp, -⟩ | ⟨rfl, hne, -⟩
  · rwa [Memory.hwm_putSlot_of_lt (Memory.lt_hwm_of_inPool hp)]
  · rw [Memory.hwm_putSlot, if_pos rfl]
    omega

/-- What any one step may do to the store: it keeps the form, moves `hwm` only up and not above `MAX_SLOTS`, and fixes
the lengths of the segments but segment 0 (10_state.md R30, R32, R33). -/
structure Memory.Evolves (cfg : Config) (m m' : Memory) : Prop where
  wf : m.wf → m'.wf
  hwm_le : m.hwm ≤ m'.hwm
  hwm_max : m.hwm ≤ cfg.maxSlots → m'.hwm ≤ cfg.maxSlots
  keepsLength : ∀ k, k ≠ 0 → m.KeepsLength k m'

theorem Memory.Evolves.refl (cfg : Config) (m : Memory) : m.Evolves cfg m :=
  ⟨id, le_rfl, id, fun _ _ => .of_eq rfl⟩

theorem Memory.Evolves.of_hwm_eq (hwf : m.wf → m'.wf) (hh : m'.hwm = m.hwm) (hk : ∀ k, k ≠ 0 → m.KeepsLength k m') :
    m.Evolves cfg m' :=
  ⟨hwf, hh.ge, fun h => hh ▸ h, hk⟩

theorem Memory.evolves_write {h o v : Word} (hw : m.write h o v = .ok m') : m.Evolves cfg m' :=
  .of_hwm_eq (Memory.wf_write · hw) (Memory.hwm_write hw) fun k _ => Memory.keepsLength_write hw k

theorem Memory.evolves_allocate {n : Word} {h : Nat} (ha : m.allocate cfg n = .ok (h, m')) : m.Evolves cfg m' :=
  ⟨(Memory.wf_allocate · ha), Memory.hwm_le_hwm_allocate ha, Memory.hwm_allocate_le_maxSlots ha,
    fun k _ => Memory.keepsLength_allocate ha k⟩

theorem Memory.evolves_free {h : Word} (hf : m.free h = .ok m') : m.Evolves cfg m' :=
  .of_hwm_eq (Memory.wf_free · hf) (Memory.hwm_free hf) fun k _ => Memory.keepsLength_free hf k

theorem Memory.evolves_loadProgram {h o : Word} (hl : m.loadProgram cfg h o = .ok m') : m.Evolves cfg m' :=
  .of_hwm_eq (Memory.wf_loadProgram · hl) (Memory.hwm_loadProgram hl) fun _ => Memory.keepsLength_loadProgram hl

end

/-! ## What an effect keeps of the state -/

section
variable {i : Instr} {s t : State}

theorem Effect.cfg_eq (h : Effect i s t) : t.cfg = s.cfg := by cases h <;> rfl

theorem Effect.evolves (h : Effect i s t) : s.memory.Evolves s.cfg t.memory := by
  cases h with
  | fault | hold | skip | register | halt | output | input => exact .refl _ _
  | store _ _ _ _ _ hm => exact Memory.evolves_write hm
  | map _ _ _ _ _ hm => exact Memory.evolves_allocate hm
  | unmap _ _ _ hm => exact Memory.evolves_free hm
  | loadProgram _ _ _ _ hm => exact Memory.evolves_loadProgram hm

/-- Segment 0 keeps its length while `pc` stays or goes to the next offset; else the instruction is a load-program, whose
target lies inside the new segment 0 (45_load_program_and_value.md R160). -/
theorem Effect.progLen_cases (h : Effect i s t) (hs : s.memory.wf) :
    (t.memory.progLen = s.memory.progLen ∧ (t.pc = s.pc ∨ t.pc = add32 s.pc 1#32)) ∨
      t.pc.toNat < t.memory.progLen := by
  have hwf := h.evolves.wf hs
  cases h with
  | fault | hold => exact .inl ⟨rfl, .inl rfl⟩
  | skip | register | halt | output | input => exact .inl ⟨rfl, .inr rfl⟩
  | store _ _ _ _ _ hm => exact .inl ⟨(Memory.keepsLength_write hm 0).progLen_eq hs hwf, .inr rfl⟩
  | map _ _ _ _ _ hm => exact .inl ⟨(Memory.keepsLength_allocate hm 0).progLen_eq hs hwf, .inr rfl⟩
  | unmap _ _ _ hm => exact .inl ⟨(Memory.keepsLength_free hm 0).progLen_eq hs hwf, .inr rfl⟩
  | loadProgram _ _ _ _ hm => exact .inr (Memory.loadProgram_ok.mp hm).2

/-- Where the program counter is after an instruction (10_state.md R24). -/
theorem Effect.pc_cases (h : Effect i s t) :
    (t.pc = s.pc ∧ ((∃ k, t = s.takeFault k) ∨ ∃ c, i = .inp c ∧ s.input = [])) ∨ t.pc = add32 s.pc 1#32 ∨
      ∃ b c, i = .loadp b c ∧ t.pc = s.getReg c := by
  cases h with
  | fault k => exact .inl ⟨rfl, .inl ⟨k, rfl⟩⟩
  | hold c hi hin => exact .inl ⟨rfl, .inr ⟨c, hi, hin⟩⟩
  | skip | register | halt | store | map | unmap | output | input => exact .inr (.inl rfl)
  | loadProgram b c _ hi => exact .inr (.inr ⟨b, c, hi, rfl⟩)

/-- Inside segment 0 the increment of `pc` does not wrap (10_state.md R24, R33). -/
theorem add32_one_toNat_of_lt {m : Memory} (hm : m.wf) {p : Word} (hp : p.toNat < m.progLen) :
    (add32 p 1#32).toNat = p.toNat + 1 := by
  have := hm.progLen_le
  rw [add32_toNat, show (1#32 : Word).toNat = 1 from rfl]
  omega

/-- An instruction fetched inside segment 0 leaves `pc` at most at the end of a segment 0 that has a word. -/
theorem Effect.pc_le_progLen_and_booted (h : Effect i s t) (hs : s.memory.wf) (hp : s.pc.toNat < s.memory.progLen) :
    t.pc.toNat ≤ t.memory.progLen ∧ t.booted := by
  rcases h.progLen_cases hs with ⟨hl, hpc⟩ | hlt
  · have hle : t.pc.toNat ≤ s.pc.toNat + 1 := by
      rcases hpc with hpc | hpc
      · rw [hpc]
        exact Nat.le_succ _
      · rw [hpc, add32_one_toNat_of_lt hs hp]
    rw [State.booted, hl]
    omega
  · exact ⟨hlt.le, Nat.one_le_of_lt hlt⟩

end

/-! ## The invariant -/

section
variable {s t : State}

theorem step_evolves (h : step s = .next t) : s.memory.Evolves s.cfg t.memory := by
  rcases step_effect h with ⟨-, rfl⟩ | ⟨w, -, he⟩
  · exact .refl _ _
  · exact he.evolves

theorem step_cfg_eq (h : step s = .next t) : t.cfg = s.cfg := by
  rcases step_effect h with ⟨-, rfl⟩ | ⟨w, -, he⟩
  · rfl
  · exact he.cfg_eq

/-- A step ends with `pc` at most at the end of segment 0, and is only taken with a segment 0 that has a word. -/
theorem step_pc_le_progLen_and_booted (hs : s.wf) (h : step s = .next t) :
    t.pc.toNat ≤ t.memory.progLen ∧ t.booted := by
  obtain ⟨hmem, -, -, hpc⟩ := hs
  rcases step_effect h with ⟨h0, rfl⟩ | ⟨w, hw, he⟩
  · exact ⟨hpc, Nat.one_le_iff_ne_zero.mpr h0⟩
  · exact he.pc_le_progLen_and_booted hmem (lt_progLen_of_read hw)

theorem step_booted (hs : s.wf) (h : step s = .next t) : t.booted := (step_pc_le_progLen_and_booted hs h).2

theorem step_keeps_wf (hs : s.wf) (h : step s = .next t) : t.wf := by
  have hpc := (step_pc_le_progLen_and_booted hs h).1
  have hev := step_evolves h
  obtain ⟨hmem, hcfg, hmax, -⟩ := hs
  rw [State.wf, step_cfg_eq h]
  exact ⟨hev.wf hmem, hcfg, hev.hwm_max hmax, hpc⟩

/-- The boot port takes an image that has a word and fits a segment, and no other (70_reset_and_hazards.md R202, R204). -/
theorem State.boot_eq_next {cfg : Config} {image : List Word} :
    State.boot cfg image = .next s ↔ image ≠ [] ∧ image.length ≤ 4294967295 ∧
      s = State.resetWith cfg (Segment.ofWords image) := by
  unfold State.boot
  by_cases h0 : image = []
  · simp [h0]
  · by_cases h1 : 4294967295 < image.length
    · simp [h0, h1, Nat.not_le.mpr h1]
    · simp [h0, h1, Nat.le_of_not_lt h1, eq_comm (b := s)]

theorem Memory.wf_single {g : Segment} (hg : g.wf) : Memory.wf { slots := [.live g] } :=
  ⟨rfl, by simpa using Slot.wf_live.mpr ⟨Nat.zero_le _, hg⟩, by simp⟩

theorem boot_wf {cfg : Config} {image : List Word} (hc : cfg.wf) (hb : State.boot cfg image = .next s) : s.wf := by
  obtain ⟨-, hlen, rfl⟩ := State.boot_eq_next.mp hb
  exact ⟨Memory.wf_single (Segment.wf_ofWords hlen), hc, hc.1, Nat.zero_le _⟩

theorem boot_booted {cfg : Config} {image : List Word} (hb : State.boot cfg image = .next s) : s.booted := by
  obtain ⟨hne, -, rfl⟩ := State.boot_eq_next.mp hb
  exact List.length_pos_iff.mpr hne

end

/-- Settles O42: the store evolves, the parameters stay, and `pc` ends inside segment 0 or at its end. -/
theorem stepKeepsTheInvariant : Obligations.StepKeepsTheInvariant :=
  fun _ _ hs h => step_keeps_wf hs h

/-- Settles O60: a boot's image has a word, and no step ends with a segment 0 that has none. -/
theorem stepKeepsTheBootedInvariant : Obligations.StepKeepsTheBootedInvariant :=
  ⟨fun _ _ _ hc hb => ⟨boot_wf hc hb, boot_booted hb⟩,
    fun _ _ hs _ h => ⟨step_keeps_wf hs h, step_booted hs h⟩⟩

/-- Settles O40: what a step may do to the store, and slot 0 live by the invariant after it. -/
theorem stepsRespectSlotLifetimes : Obligations.StepsRespectSlotLifetimes := by
  intro s t hs h
  have hev := step_evolves h
  exact ⟨hev.hwm_le, (hev.wf hs.1).zero_live, fun k g g' hk => hev.keepsLength k hk g g',
    fun _ => Memory.live_iff_not_inPool⟩

/-- Settles O44, by induction on the run: a boot gives the invariant, steps and answers keep it, a reset is a boot. -/
theorem reachableStatesMeetTheInvariant : Obligations.ReachableStatesMeetTheInvariant := by
  intro s hr
  induction hr with
  | boot cfg image s hc hb => exact ⟨boot_wf hc hb, boot_booted hb⟩
  | step s t _ ht ih => exact ⟨step_keeps_wf ih.1 ht, step_booted ih.1 ht⟩
  | answer s r _ ih => exact ih
  | reset s t image _ ht ih =>
    obtain ⟨⟨-, hc, -⟩, -⟩ := ih
    exact ⟨boot_wf hc ht, boot_booted ht⟩

/-! ## Registers, `pc` and channels -/

/-- Settles O51: only the endings that write a register touch the register file, and they name the destination. -/
theorem onlyTheDestinationRegisterChanges : Obligations.OnlyTheDestinationRegisterChanges := by
  intro i s t r h hr
  cases exec_effect h with
  | fault | hold | skip | halt | store | unmap | output | loadProgram => rfl
  | register q v hd =>
    have hne : r ≠ q := fun e => hr (e ▸ hd)
    simp [hne]
  | map b c n m hi | input b c n hi =>
    subst hi
    have hne : r ≠ b := fun e => hr (e ▸ rfl)
    simp [hne]

/-- The hold of 40_execution_cycle.md R108: running, at an input instruction, and no answer pending. -/
theorem awaitingInput_iff {s : State} : s.awaitingInput = true ↔
    s.runState = .running ∧ (∃ w c, s.memory.read 0#32 s.pc = .ok w ∧ decode w = .inp c) ∧ s.input = [] := by
  constructor
  · intro h
    unfold State.awaitingInput at h
    split at h
    · rename_i w hr hf hi
      split at h
      · rename_i c hd
        exact ⟨hr, ⟨w, c, fetch_eq_word.mp hf, hd⟩, hi⟩
      · exact absurd h Bool.false_ne_true
    · exact absurd h Bool.false_ne_true
  · rintro ⟨hr, ⟨w, c, hw, hd⟩, hi⟩
    simp [State.awaitingInput, hr, fetch_eq_word.mpr hw, hi, hd]

/-- Settles O53: the end of the program, a fault and a hold leave `pc`; every other ending but a load-program's adds 1,
inside segment 0 and so without a wrap. -/
theorem programCounterChangesInTwoWays : Obligations.ProgramCounterChangesInTwoWays := by
  intro s t hs h
  have hrun := (step_eq_next h).1
  rcases step_effect h with ⟨-, rfl⟩ | ⟨w, hw, he⟩
  · exact .inl ⟨rfl, .inl (by simp)⟩
  · rcases he.pc_cases with ⟨hpc, ⟨k, rfl⟩ | ⟨c, hi, hin⟩⟩ | hpc | ⟨b, c, hi, hpc⟩
    · exact .inl ⟨hpc, .inl (by simp)⟩
    · exact .inl ⟨hpc, .inr (awaitingInput_iff.mpr ⟨hrun, ⟨w, c, hw, hi⟩, hin⟩)⟩
    · exact .inr (.inl (by rw [hpc, add32_one_toNat_of_lt hs.1 (lt_progLen_of_read hw)]))
    · exact .inr (.inr ⟨w, b, c, hw, hi, hpc⟩)

/-- Settles O54: one ending extends the delivered bytes, one takes an answer, and each names its instruction. -/
theorem channelsAreReachedOnlyByOutAndIn : Obligations.ChannelsAreReachedOnlyByOutAndIn := by
  intro i s t h
  refine ⟨?_, ?_, (exec_effect h).cfg_eq⟩
  · cases exec_effect h with
    | output c hi hv =>
      refine .inr ⟨c, _, hi, rfl, ?_⟩
      rw [BitVec.toNat_setWidth]
      omega
    | fault | hold | skip | register | halt | store | map | unmap | input | loadProgram => exact .inl rfl
  · cases exec_effect h with
    | input c r rest hi hin => exact .inr ⟨c, r, hi, hin⟩
    | fault | hold | skip | register | halt | store | map | unmap | output | loadProgram => exact .inl rfl

/-! ## What a step does not read of the channels -/

/-- The state with answers of the host added after the pending ones, and bytes put before the delivered ones. -/
def State.extendChannels (s : State) (later : List InputResponse) (before : List Byte) : State :=
  { s with input := s.input ++ later, output := before ++ s.output }

section
variable (s : State) (later : List InputResponse) (before : List Byte)

@[simp] theorem extendChannels_getReg (r : Reg) : (s.extendChannels later before).getReg r = s.getReg r := rfl
@[simp] theorem extendChannels_runState : (s.extendChannels later before).runState = s.runState := rfl
@[simp] theorem extendChannels_pc : (s.extendChannels later before).pc = s.pc := rfl
@[simp] theorem extendChannels_memory : (s.extendChannels later before).memory = s.memory := rfl
@[simp] theorem extendChannels_input : (s.extendChannels later before).input = s.input ++ later := rfl

@[simp] theorem advance_extendChannels :
    (s.extendChannels later before).advance = s.advance.extendChannels later before := rfl

@[simp] theorem setReg_extendChannels (r : Reg) (v : Word) :
    (s.extendChannels later before).setReg r v = (s.setReg r v).extendChannels later before := rfl

@[simp] theorem setInput_extendChannels (rest : List InputResponse) :
    (s.extendChannels later before).setInput (rest ++ later) = (s.setInput rest).extendChannels later before := rfl

@[simp] theorem takeFault_extendChannels (k : FaultKind) :
    (s.extendChannels later before).takeFault k = (s.takeFault k).extendChannels later before := rfl

@[simp] theorem writeBinary_extendChannels (f : Word → Word → Word) (a b c : Reg) :
    writeBinary f a b c (s.extendChannels later before) = (writeBinary f a b c s).extendChannels later before := rfl

@[simp] theorem deliver_extendChannels (v : Byte) :
    (s.extendChannels later before).deliver v = (s.deliver v).extendChannels later before := by
  simp [State.extendChannels, State.deliver]

end

/-- A function of the state, carried to the next state of a step. -/
def mapNext (f : State → State) : StepResult → StepResult
  | .next s => .next (f s)
  | .fault r => .fault r
  | .refused r => .refused r

section
variable (s : State) (later : List InputResponse) (before : List Byte)

/-- What follows a store operation's result is carried along, and so is its fault. -/
theorem orFault_extendChannels {α : Type} {next next' : α → StepResult} (r : Except FaultKind α)
    (hn : ∀ v, next' v = mapNext (·.extendChannels later before) (next v)) :
    (s.extendChannels later before).orFault r next' = mapNext (·.extendChannels later before) (s.orFault r next) := by
  cases r with
  | error k => rfl
  | ok v => exact hn v

/-- NONINTERFERENCE of `exec`: unless an input instruction finds no answer where one is added, the meaning is the same
on the longer channels (10_state.md R35, R38). -/
theorem exec_extendChannels {i : Instr} (hin : ∀ c, i = .inp c → s.input = [] → later = []) :
    exec i (s.extendChannels later before) = mapNext (·.extendChannels later before) (exec i s) := by
  cases i with
  | add | mul | nand | halt | lv | invalid14 | invalid15 => rfl
  | sload | sstore | map | unmap | loadp => exact orFault_extendChannels s later before _ fun _ => rfl
  | cmov a b c => by_cases hc : condHolds (s.getReg c) <;> simp [exec, execCmov, mapNext, hc]
  | div a b c => by_cases hc : s.getReg c = 0#32 <;> simp [exec, execDiv, mapNext, hc]
  | out c => by_cases hv : 255 < (s.getReg c).toNat <;> simp [exec, execOut, mapNext, hv]
  | inp c =>
    cases hi : s.input with
    | nil =>
      have hl : later = [] := hin c rfl hi
      simp [exec, execInp, mapNext, hi, hl]
    | cons r rest => simp [exec, execInp, mapNext, hi]

theorem step_of_read {w : Word} (hr : s.runState = .running) (hw : s.memory.read 0#32 s.pc = .ok w) :
    step s = exec (decode w) s := by
  simp [step, hr, fetch_eq_word.mpr hw]

theorem step_of_end (hr : s.runState = .running) (h0 : s.memory.progLen ≠ 0) (hp : s.memory.progLen ≤ s.pc.toNat) :
    step s = .next s.endProgram := by
  simp [step, hr, fetch_eq_endOfProgram.mpr ⟨h0, hp⟩]

/-- NONINTERFERENCE of `step`: the same step on the longer channels, unless it waits for an answer that is added. -/
theorem step_extendChannels {t : State} (h : step s = .next t) (hin : s.awaitingInput = true → later = []) :
    step (s.extendChannels later before) = .next (t.extendChannels later before) := by
  obtain ⟨hr, ⟨h0, hp, rfl⟩ | ⟨w, hw, he⟩⟩ := step_eq_next h
  · exact step_of_end (s.extendChannels later before) hr h0 hp
  · have hwait : ∀ c, decode w = .inp c → s.input = [] → later = [] := fun c hc hi =>
      hin (awaitingInput_iff.mpr ⟨hr, ⟨w, c, hw, hc⟩, hi⟩)
    calc step (s.extendChannels later before)
        = exec (decode w) (s.extendChannels later before) := step_of_read _ hr hw
      _ = mapNext (·.extendChannels later before) (exec (decode w) s) := exec_extendChannels s later before hwait
      _ = .next (t.extendChannels later before) := by rw [he, mapNext]

end

/-- Settles O55: bytes put before the delivered ones, with no answer added. -/
theorem deliveredBytesAreNotRead : Obligations.DeliveredBytesAreNotRead := by
  intro s t before h
  simpa [State.extendChannels] using step_extendChannels s [] before h fun _ => rfl

/-- Settles O56: answers added behind the pending ones, in a state that waits for none. -/
theorem laterAnswersAreNotRead : Obligations.LaterAnswersAreNotRead := by
  intro s t later h hwait
  exact step_extendChannels s later [] h fun hw => by simp [hwait] at hw

/-! ## Reset and the exit status -/

/-- Segment 0 of a boot reads word `o` of the image at offset `o` (70_reset_and_hazards.md R202). -/
theorem read_resetWith (cfg : Config) (image : List Word) (o : Word) :
    (State.resetWith cfg (Segment.ofWords image)).memory.read 0#32 o =
      if o.toNat < image.length then .ok (image.getD o.toNat 0#32) else .error .segBadOffset := by
  have hlive : (State.resetWith cfg (Segment.ofWords image)).memory.liveSeg (0#32 : Word).toNat =
      some (Segment.ofWords image) := rfl
  by_cases ho : o.toNat < image.length
  · rw [if_pos ho]
    exact Memory.read_ok.mpr ⟨_, hlive, ho, (Segment.read_ofWords image o.toNat).symm⟩
  · rw [if_neg ho]
    exact Memory.read_error.mpr (.inr ⟨_, hlive, Nat.le_of_not_lt ho, rfl⟩)

/-- What a boot leaves is R200's value of every piece of state. -/
theorem hasResetValues_resetWith (cfg : Config) (image : List Word) :
    HasResetValues cfg image (State.resetWith cfg (Segment.ofWords image)) := by
  have hpool : PoolEmpty (State.resetWith cfg (Segment.ofWords image)).memory := fun k => by
    cases k <;> simp [State.resetWith, Memory.inPool]
  exact ⟨fun _ => rfl, rfl, rfl, rfl, rfl, read_resetWith cfg image, hpool, rfl, rfl, rfl⟩

/-- Settles O47: the reset input is the boot port under the state's parameters. -/
theorem resetForgetsTheRun : Obligations.ResetForgetsTheRun := by
  intro s image
  refine ⟨rfl, ?_, fun hne hlen => ?_⟩
  · rintro rfl
    rfl
  · exact ⟨_, State.boot_eq_next.mpr ⟨hne, hlen, rfl⟩, hasResetValues_resetWith s.cfg image⟩

/-- Settles O58: the status output by run state, and the free value of `EXIT_FAULT` is not 0. -/
theorem exitStatusFollowsTheRunState : Obligations.ExitStatusFollowsTheRunState := by
  intro s
  refine ⟨fun h => ?_, fun c h => ?_, fun k p w h => ?_, exitFault_ne_zero⟩ <;> rw [State.exitStatus, h]

end Sys2Proof.Machine

/-! PROOFS of the statements of 20_memory.md. First what "not live", the capacity and an available handle come to for the
store operations, then the frame of each operation (which slots and addresses it leaves as they were), and the
statements from these. -/

namespace Sys2Proof.Machine

/-! ## Handles, the pool and the capacity -/

section
variable {cfg : Config} {m m' : Memory}

/-- Out of range or reclaimed is the same as not live (20_memory.md R47). -/
theorem notLive_iff {h : Nat} : NotLive m h ↔ m.liveSeg h = none := by
  constructor
  · rintro (hh | hp)
    · rw [Memory.liveSeg_eq, List.getElem?_eq_none hh]
      rfl
    · exact Memory.liveSeg_of_inPool hp
  · intro hn
    rcases Nat.lt_or_ge h m.hwm with hh | hh
    · rcases Memory.live_or_inPool hh with ⟨g, hg⟩ | hp
      · simp [hn] at hg
      · exact .inr hp
    · exact .inl hh

theorem exceedsCapacity_eq_true_iff {n : Nat} : exceedsCapacity cfg n = true ↔ OverCapacity cfg n := by
  unfold exceedsCapacity OverCapacity
  cases cfg.memCapacity <;> simp

theorem exceedsCapacity_eq_false_iff {n : Nat} : exceedsCapacity cfg n = false ↔ FitsCapacity cfg n := by
  unfold exceedsCapacity FitsCapacity
  cases cfg.memCapacity <;> simp

/-- Fewer words fit where more do (20_memory.md R58). -/
theorem exceedsCapacity_eq_false_of_le {n k : Nat} (hn : exceedsCapacity cfg n = false) (hk : k ≤ n) :
    exceedsCapacity cfg k = false :=
  exceedsCapacity_eq_false_iff.mpr fun cap hc => hk.trans (exceedsCapacity_eq_false_iff.mp hn cap hc)

theorem Memory.chooseHandle_error_of_not_available (ha : ¬ HandleAvailable cfg m) :
    m.chooseHandle cfg = .error .handleExhausted := by
  obtain ⟨hpool, hmax⟩ := not_or.mp ha
  exact Memory.chooseHandle_error.mpr ⟨rfl, not_not.mp hmax, not_not.mp hpool⟩

theorem HandleAvailable.chooseHandle_ok (ha : HandleAvailable cfg m) : ∃ h, m.chooseHandle cfg = .ok h := by
  cases hc : m.chooseHandle cfg with
  | ok h => exact ⟨h, rfl⟩
  | error k =>
    obtain ⟨-, hmax, hpool⟩ := Memory.chooseHandle_error.mp hc
    exact absurd ha (not_or.mpr ⟨not_not.mpr hpool, not_not.mpr hmax⟩)

/-- A chosen handle is below `MAX_SLOTS` (20_memory.md R53). -/
theorem Memory.chooseHandle_lt_maxSlots {h : Nat} (hmax : m.hwm ≤ cfg.maxSlots) (hc : m.chooseHandle cfg = .ok h) :
    h < cfg.maxSlots := by
  rcases Memory.chooseHandle_ok.mp hc with ⟨hp, -⟩ | ⟨rfl, hne, -⟩
  · exact (Memory.lt_hwm_of_inPool hp).trans_le hmax
  · exact lt_of_le_of_ne hmax hne

/-- While the pool has a member, the choice is its lowest (20_memory.md R52). -/
theorem Memory.lowestInPool_of_chooseHandle {h k : Nat} (hc : m.chooseHandle cfg = .ok h) (hk : m.inPool k = true) :
    LowestInPool m h := by
  rcases Memory.chooseHandle_ok.mp hc with hlow | ⟨-, -, hpool⟩
  · exact hlow
  · simp [hpool k] at hk

/-- The pool has one lowest member. -/
theorem LowestInPool.unique {h k : Nat} (hh : LowestInPool m h) (hk : LowestInPool m k) : h = k := by
  have not_lt : ∀ {i j}, LowestInPool m i → LowestInPool m j → ¬ i < j := fun hi hj hij => by
    simpa [hi.1] using hj.2 _ hij
  exact Nat.le_antisymm (Nat.le_of_not_lt (not_lt hk hh)) (Nat.le_of_not_lt (not_lt hh hk))

/-- `live_words` as the rule counts it: the lengths of all live segments (20_memory.md R50). -/
theorem slotWords_eq_sum (ss : List Slot) : slotWords ss =
    ((List.range ss.length).map fun k => ((Memory.liveSeg ⟨ss⟩ k).map Segment.len).getD 0).sum := by
  induction ss with
  | nil => rfl
  | cons sl ss ih =>
    have hsucc : ∀ k, Memory.liveSeg ⟨sl :: ss⟩ (k + 1) = Memory.liveSeg ⟨ss⟩ k := fun _ => rfl
    have hzero : Memory.liveSeg ⟨sl :: ss⟩ 0 = sl.seg? := by cases sl <;> rfl
    rw [List.length_cons, List.range_succ_eq_map, List.map_cons, List.map_map, List.sum_cons, hzero]
    simp only [Function.comp_def, hsucc, ← ih]
    cases sl <;> simp [slotWords, Slot.seg?]

/-! ## What each operation does to the slots -/

/-- Every slot but the one put is live with the same segment, in the pool, or not created, as it was. -/
theorem Memory.putSlot_frame {h k : Nat} (hh : h ≤ m.hwm) (sl : Slot) (hk : k ≠ h) :
    (m.putSlot h sl).liveSeg k = m.liveSeg k ∧ (m.putSlot h sl).inPool k = m.inPool k := by
  rw [Memory.liveSeg_putSlot hh, Memory.inPool_putSlot hh, if_neg hk, if_neg hk]
  exact ⟨rfl, rfl⟩

/-- A read through a handle whose slot was not put is as before. -/
theorem Memory.read_putSlot_of_ne {h : Nat} {k : Word} (hh : h ≤ m.hwm) (sl : Slot) (hk : k.toNat ≠ h) (o : Word) :
    (m.putSlot h sl).read k o = m.read k o :=
  Memory.read_congr (Memory.putSlot_frame hh sl hk).1 o

/-- A write puts its segment, with the word replaced, and nothing else. -/
theorem Memory.liveSeg_write {h o v : Word} {g : Segment} (hg : m.liveSeg h.toNat = some g)
    (hw : m.write h o v = .ok m') (k : Nat) :
    m'.liveSeg k = if k = h.toNat then some (g.write o.toNat v) else m.liveSeg k := by
  obtain ⟨g', hg', -, rfl⟩ := Memory.write_ok.mp hw
  obtain rfl : g = g' := by simpa [hg] using hg'
  exact Memory.liveSeg_putSlot (Memory.lt_hwm_of_live hg).le _ k

theorem Memory.read_write_of_ne {h o v k : Word} (hw : m.write h o v = .ok m') (hk : k ≠ h) (p : Word) :
    m'.read k p = m.read k p := by
  obtain ⟨g, hg, -, -⟩ := Memory.write_ok.mp hw
  exact Memory.read_congr (by rw [Memory.liveSeg_write hg hw, if_neg (mt BitVec.eq_of_toNat_eq hk)]) p

/-- A read after a write: the written word at its address, and every other address as before (20_memory.md R49). -/
theorem Memory.read_write (hm : m.wf) {h o v : Word} (hw : m.write h o v = .ok m') (h' o' : Word) :
    m'.read h' o' = if h' = h ∧ o' = o then .ok v else m.read h' o' := by
  obtain ⟨g, hg, ho, -⟩ := Memory.write_ok.mp hw
  by_cases hh : h' = h
  · subst hh
    have hg' : m'.liveSeg h'.toNat = some (g.write o.toNat v) := by rw [Memory.liveSeg_write hg hw, if_pos rfl]
    have hread := Segment.read_write (hm.seg_wf hg) o.toNat v o'.toNat
    by_cases ho' : o' = o
    · subst ho'
      rw [if_pos ⟨rfl, rfl⟩]
      exact Memory.read_ok.mpr ⟨_, hg', ho, by rw [hread, if_pos rfl]⟩
    · rw [if_neg (mt BitVec.eq_of_toNat_eq ho')] at hread
      simp [Memory.read, hg, hg', hread, ho']
  · rw [if_neg fun h => hh h.1, Memory.read_write_of_ne hw hh]

/-- A write replaces words of a segment, not its length (20_memory.md R49). -/
theorem Memory.len_write {h o v : Word} (hw : m.write h o v = .ok m') (k : Nat) :
    (m'.liveSeg k).map Segment.len = (m.liveSeg k).map Segment.len := by
  obtain ⟨g, hg, -, -⟩ := Memory.write_ok.mp hw
  rw [Memory.liveSeg_write hg hw]
  split
  next hk => rw [hk, hg]; rfl
  next => rfl

/-- An allocation puts a zero-filled segment under its handle (20_memory.md R50). -/
theorem Memory.liveSeg_allocate {n : Word} {h : Nat} (ha : m.allocate cfg n = .ok (h, m')) :
    m'.liveSeg h = some (Segment.zeros n.toNat) := by
  obtain ⟨-, hc, -, rfl⟩ := Memory.allocate_ok.mp ha
  rw [Memory.liveSeg_putSlot (Memory.chooseHandle_le hc).1, if_pos rfl]
  rfl

theorem Memory.allocate_frame {n : Word} {h k : Nat} (ha : m.allocate cfg n = .ok (h, m')) (hk : k ≠ h) :
    m'.liveSeg k = m.liveSeg k ∧ m'.inPool k = m.inPool k := by
  obtain ⟨-, hc, -, rfl⟩ := Memory.allocate_ok.mp ha
  exact Memory.putSlot_frame (Memory.chooseHandle_le hc).1 _ hk

/-- A new segment reads 0 inside its length, whatever the handle held before (20_memory.md R51). -/
theorem Memory.read_allocate {n h : Word} (ha : m.allocate cfg n = .ok (h.toNat, m')) (o : Word) :
    m'.read h o = if o.toNat < n.toNat then .ok 0#32 else .error .segBadOffset := by
  have hlive := Memory.liveSeg_allocate ha
  split
  next ho => exact Memory.read_ok.mpr ⟨_, hlive, ho, rfl⟩
  next ho => exact Memory.read_error.mpr (.inr ⟨_, hlive, Nat.le_of_not_lt ho, rfl⟩)

/-- A free puts its handle into the pool (20_memory.md R54). -/
theorem Memory.inPool_free {h : Word} (hf : m.free h = .ok m') : m'.inPool h.toNat = true := by
  obtain ⟨-, ⟨g, hg⟩, rfl⟩ := Memory.free_ok.mp hf
  rw [Memory.inPool_putSlot (Memory.lt_hwm_of_live hg).le, if_pos rfl]
  rfl

theorem Memory.free_frame {h : Word} {k : Nat} (hf : m.free h = .ok m') (hk : k ≠ h.toNat) :
    m'.liveSeg k = m.liveSeg k ∧ m'.inPool k = m.inPool k := by
  obtain ⟨-, ⟨g, hg⟩, rfl⟩ := Memory.free_ok.mp hf
  exact Memory.putSlot_frame (Memory.lt_hwm_of_live hg).le _ hk

/-- After a copy, segment 0 is the copied segment (20_memory.md R56). -/
theorem Memory.liveSeg_zero_dupIntoZero {h : Word} {g : Segment} (hg : m.liveSeg h.toNat = some g)
    (hd : m.dupIntoZero cfg h = .ok m') : m'.liveSeg 0 = some g := by
  rcases Memory.dupIntoZero_ok.mp hd with ⟨rfl, rfl⟩ | ⟨-, g', hg', -, rfl⟩
  · exact hg
  · rw [Memory.liveSeg_putSlot (Nat.zero_le _), if_pos rfl, ← hg, hg']
    rfl

theorem Memory.read_zero_dupIntoZero {h : Word} (hd : m.dupIntoZero cfg h = .ok m') (o : Word) :
    m'.read 0#32 o = m.read h o := by
  have hseg : m'.liveSeg (0#32 : Word).toNat = m.liveSeg h.toNat := by
    rcases Memory.dupIntoZero_ok.mp hd with ⟨rfl, rfl⟩ | ⟨-, g, hg, -, -⟩
    · rfl
    · rw [hg]
      exact Memory.liveSeg_zero_dupIntoZero hg hd
  simp only [Memory.read, hseg]

theorem Memory.dupIntoZero_frame {h : Word} {k : Nat} (hd : m.dupIntoZero cfg h = .ok m') (hk : k ≠ 0) :
    m'.liveSeg k = m.liveSeg k ∧ m'.inPool k = m.inPool k := by
  rcases Memory.dupIntoZero_ok.mp hd with ⟨-, rfl⟩ | ⟨-, g, -, -, rfl⟩
  · exact ⟨rfl, rfl⟩
  · exact Memory.putSlot_frame (Nat.zero_le _) _ hk

theorem Memory.hwm_dupIntoZero {h : Word} (hd : m.dupIntoZero cfg h = .ok m') : m'.hwm = m.hwm := by
  rcases Memory.dupIntoZero_ok.mp hd with ⟨-, rfl⟩ | ⟨-, g, hg, -, rfl⟩
  · rfl
  · exact Memory.hwm_putSlot_of_lt (Nat.zero_lt_of_lt (Memory.lt_hwm_of_live hg)) _

end

/-! ## The operations' rules -/

/-- Settles O30: the two faults are a read's, and a successful write is one word replaced. -/
theorem memWriteReplacesOneWord : Obligations.MemWriteReplacesOneWord := by
  intro m h o v hm
  refine ⟨fun hn => ?_, fun g hg ho => ?_, fun g hg ho => ?_⟩
  · exact Memory.write_error.mpr (Memory.read_error.mpr (.inl ⟨notLive_iff.mp hn, rfl⟩))
  · exact Memory.write_error.mpr (Memory.read_error.mpr (.inr ⟨g, hg, ho, rfl⟩))
  · have hw := Memory.write_ok (v := v).mpr ⟨g, hg, ho, rfl⟩
    exact ⟨_, hw, Memory.hwm_write hw, Memory.read_write hm hw, Memory.len_write hw⟩

/-- Settles O31: each fault excludes those before it, and a handle that fits gets the new segment. -/
theorem allocateFollowsItsRule : Obligations.AllocateFollowsItsRule := by
  intro cfg m n
  refine ⟨slotWords_eq_sum m.slots, fun hn => ?_, fun hn ha => ?_, fun hn ha ho => ?_, fun hn ha hf => ?_⟩
  · exact Memory.allocate_error.mpr (.inl ⟨hn, rfl⟩)
  · exact Memory.allocate_error.mpr (.inr (.inl ⟨hn, Memory.chooseHandle_error_of_not_available ha⟩))
  · exact Memory.allocate_error.mpr
      (.inr (.inr ⟨hn, ha.chooseHandle_ok, exceedsCapacity_eq_true_iff.mpr ho, rfl⟩))
  · obtain ⟨h, hc⟩ := ha.chooseHandle_ok
    have hal := Memory.allocate_ok.mpr ⟨hn, hc, exceedsCapacity_eq_false_iff.mpr hf, rfl⟩
    have hlive := Memory.liveSeg_allocate hal
    refine ⟨h, _, hal, ?_, Memory.hwm_putSlot m h _, ?_, ⟨_, hlive, rfl, Segment.zeros_read _⟩,
      Memory.liveWords_allocate hal, fun k hk => Memory.allocate_frame hal hk⟩
    · exact (Memory.chooseHandle_ok.mp hc).imp_right fun ⟨heq, _, hpool⟩ => ⟨hpool, heq⟩
    · exact (Memory.live_iff_not_inPool (Memory.lt_hwm_of_live hlive)).mp ⟨_, hlive⟩

/-- Settles O33: the choice is the pool's lowest member, and a freed handle below all others is that member. -/
theorem lowestReclaimedHandleFirst : Obligations.LowestReclaimedHandleFirst := by
  intro cfg m
  refine ⟨fun n h m' ha => ?_, fun h n m₁ m₂ k hf hlow ha => ?_⟩
  · obtain ⟨-, hc, -, -⟩ := Memory.allocate_ok.mp ha
    rcases Memory.chooseHandle_ok.mp hc with hl | ⟨heq, -, hpool⟩
    · exact ⟨fun _ => hl, fun hempty => by simp [hempty h] at hl⟩
    · exact ⟨fun hne => absurd hpool hne, fun _ => heq⟩
  · obtain ⟨-, hc, -, -⟩ := Memory.allocate_ok.mp ha
    have hh : LowestInPool m₁ h.toNat :=
      ⟨Memory.inPool_free hf, fun j hj => by rw [(Memory.free_frame hf hj.ne).2, hlow j hj]⟩
    exact (Memory.lowestInPool_of_chooseHandle hc hh.1).unique hh

/-- Settles O34: slot 0 is live, and the choice is below `MAX_SLOTS`, which fits a word. -/
theorem allocatedHandleIsFresh : Obligations.AllocatedHandleIsFresh := by
  rintro s n h m' ⟨hm, ⟨-, hword⟩, hmax, -⟩ ha
  obtain ⟨-, hc, -, -⟩ := Memory.allocate_ok.mp ha
  have hlt := Memory.chooseHandle_lt_maxSlots hmax hc
  refine ⟨Memory.chooseHandle_ne_zero hm hc, (Memory.chooseHandle_le hc).2, Nat.le_sub_one_of_lt hlt, ?_⟩
  rw [BitVec.toNat_ofNat]
  omega

/-- Settles O35: three conditions are one fault; a live handle other than 0 goes into the pool. -/
theorem freeFollowsItsRule : Obligations.FreeFollowsItsRule := by
  intro m h
  refine ⟨fun h0 => ?_, fun hh => ?_, fun hp => ?_, fun g h0 hg => ?_⟩
  · exact Memory.free_error.mpr ⟨.inl h0, rfl⟩
  · exact Memory.free_error.mpr ⟨.inr (notLive_iff.mp (.inl hh)), rfl⟩
  · exact Memory.free_error.mpr ⟨.inr (notLive_iff.mp (.inr hp)), rfl⟩
  · have hf := Memory.free_ok.mpr ⟨h0, ⟨g, hg⟩, rfl⟩
    exact ⟨_, hf, Memory.hwm_free hf, Memory.inPool_free hf, Memory.liveWords_free hg hf,
      fun k hk => Memory.free_frame hf hk⟩

/-- Settles O37: the no-op, the two faults in order, and the copy. -/
theorem dupIntoZeroFollowsItsRule : Obligations.DupIntoZeroFollowsItsRule := by
  intro cfg m h
  refine ⟨fun h0 => ?_, fun h0 hn => ?_, fun g h0 hg => ⟨fun ho => ?_, fun hf => ?_⟩⟩
  · exact Memory.dupIntoZero_ok.mpr (.inl ⟨h0, rfl⟩)
  · exact Memory.dupIntoZero_error.mpr ⟨h0, .inl ⟨notLive_iff.mp hn, rfl⟩⟩
  · exact Memory.dupIntoZero_error.mpr ⟨h0, .inr ⟨g, hg, exceedsCapacity_eq_true_iff.mpr ho, rfl⟩⟩
  · have hd := Memory.dupIntoZero_ok.mpr (.inr ⟨h0, g, hg, exceedsCapacity_eq_false_iff.mpr hf, rfl⟩)
    exact ⟨_, hd, Memory.hwm_dupIntoZero hd, Memory.progLen_of_live (Memory.liveSeg_zero_dupIntoZero hg hd),
      Memory.read_zero_dupIntoZero hd, Memory.liveWords_dupIntoZero h0 hg hd,
      fun k hk => Memory.dupIntoZero_frame hd hk⟩

/-- Settles O38: handles `h` and 0 differ, so a write through one is no write of the other's slot. -/
theorem copiedSegmentsAreIndependent : Obligations.CopiedSegmentsAreIndependent := by
  intro cfg m m₁ m₂ h _ h0 hd
  refine ⟨fun o v hw p => ?_, fun o v hw p => ?_⟩
  · rw [Memory.read_write_of_ne hw h0.symm, Memory.read_zero_dupIntoZero hd]
  · have hk : h.toNat ≠ 0 := fun hz => h0 (BitVec.eq_of_toNat_eq hz)
    rw [Memory.read_write_of_ne hw h0, Memory.read_congr (Memory.dupIntoZero_frame hd hk).1]

/-! ## The capacity, along a step -/

section
variable {i : Instr} {s t : State} {k : FaultKind}

/-- No instruction takes the live words over the capacity: a write keeps their number, a free lowers it, and an
allocation and a copy test it before (20_memory.md R58). -/
theorem Effect.withinCapacity (h : Effect i s t) (hs : s.withinCapacity) : t.withinCapacity := by
  cases h with
  | fault | hold | skip | register | halt | output | input => exact hs
  | store a b c m _ hm => exact exceedsCapacity_eq_false_of_le hs (Memory.liveWords_write hm).le
  | map b c h m _ hm =>
    obtain ⟨-, -, hfit, -⟩ := Memory.allocate_ok.mp hm
    exact exceedsCapacity_eq_false_of_le hfit (Memory.liveWords_allocate hm).le
  | unmap c m _ hm =>
    obtain ⟨-, ⟨g, hg⟩, -⟩ := Memory.free_ok.mp hm
    exact exceedsCapacity_eq_false_of_le hs (Nat.le.intro (Memory.liveWords_free hg hm))
  | loadProgram b c m _ hm =>
    have hd := (Memory.loadProgram_ok.mp hm).1
    rcases Memory.dupIntoZero_ok.mp hd with ⟨-, rfl⟩ | ⟨h0, g, hg, hfit, -⟩
    · exact hs
    · have hlw := Memory.liveWords_dupIntoZero h0 hg hd
      have hle : m.liveWords ≤ s.memory.liveWords - s.memory.progLen + g.len := by omega
      exact exceedsCapacity_eq_false_of_le hfit hle

/-- An instruction that leaves RUNNING for FAULTED took the fault, and is one of those that raise it. -/
theorem Effect.eq_takeFault (h : Effect i s t) (hr : s.runState = .running) {p w : Word}
    (ht : t.runState = .faulted k p w) : raisedBy k i = true ∧ t = s.takeFault k := by
  cases h with
  | fault k' hk =>
    cases ht
    exact ⟨hk, rfl⟩
  | halt => cases ht
  | hold | skip | register | store | map | unmap | output | input | loadProgram =>
    exact absurd (hr.symm.trans ht) (by simp)

/-- Where a store operation's success leaves the machine running, a fault taken is the operation's own. -/
theorem error_of_orFault_eq_takeFault {α : Type} {r : Except FaultKind α} {f : α → State}
    (h : s.orFault r (fun v => .next (f v)) = .next (s.takeFault k)) (hr : ∀ v, (f v).runState = .running) :
    r = .error k := by
  rcases orFault_eq_next.mp h with ⟨k', rfl, hs⟩ | ⟨v, -, hs⟩
  · have hk : k = k' := by simpa using congrArg State.runState hs
    rw [hk]
  · have hrun := (congrArg State.runState (Host.Outcome.next.inj hs)).symm.trans (hr v)
    cases hrun

/-- MEMORY_EXHAUSTED comes from an allocation or a copy over a finite capacity (20_memory.md R58). -/
theorem finite_of_memoryExhausted (hr : s.runState = .running) (hk : raisedBy .memoryExhausted i = true)
    (h : exec i s = .next (s.takeFault .memoryExhausted)) : ∃ n, OverCapacity s.cfg n := by
  cases i with
  | map b c =>
    have he := error_of_orFault_eq_takeFault h fun _ => hr
    rcases Memory.allocate_error.mp he with ⟨-, hf⟩ | ⟨-, hc⟩ | ⟨-, -, hover, -⟩
    · cases hf
    · cases (Memory.chooseHandle_error.mp hc).1
    · exact ⟨_, exceedsCapacity_eq_true_iff.mp hover⟩
  | loadp b c =>
    have he := error_of_orFault_eq_takeFault h fun _ => hr
    rcases Memory.loadProgram_error.mp he with hd | ⟨_, -, -, hf⟩
    · rcases Memory.dupIntoZero_error.mp hd with ⟨-, ⟨-, hf⟩ | ⟨_, -, hover, -⟩⟩
      · cases hf
      · exact ⟨_, exceedsCapacity_eq_true_iff.mp hover⟩
    · cases hf
  | cmov | sload | sstore | add | mul | div | nand | halt | unmap | out | inp | lv | invalid14 | invalid15 => cases hk

end

/-- Settles O39: the capacity along each ending of an instruction, and the source of the one fault. -/
theorem stepsKeepWithinCapacity : Obligations.StepsKeepWithinCapacity := by
  refine ⟨fun s t _ hcap h => ?_, fun s t p w h hf => ?_⟩
  · rcases step_effect h with ⟨-, rfl⟩ | ⟨w, -, he⟩
    · exact hcap
    · exact he.withinCapacity hcap
  · obtain ⟨hr, ⟨-, -, rfl⟩ | ⟨v, -, he⟩⟩ := step_eq_next h
    · cases hf
    · obtain ⟨hk, rfl⟩ := (exec_effect he).eq_takeFault hr hf
      obtain ⟨n, cap, hcap, -⟩ := finite_of_memoryExhausted hr hk he
      exact ⟨hr, cap, hcap⟩

/-! ## Stores and the program -/

/-- Settles O41: the store is done by the time of the next fetch, which reads the stored word. -/
theorem storeIsFetchedByTheNextStep : Obligations.StoreIsFetchedByTheNextStep := by
  intro s w a b c hs hr hw hdec ha hb hlt
  obtain ⟨g, hg⟩ := hs.1.zero_live
  rw [Memory.progLen_of_live hg] at hlt
  have hstore := Memory.write_ok (h := 0#32) (v := s.getReg c).mpr ⟨g, hg, hlt, rfl⟩
  have hread := Memory.read_write hs.1 hstore 0#32 (s.pc + 1#32)
  rw [if_pos ⟨rfl, rfl⟩, ← add32_eq] at hread
  refine ⟨_, ?_, step_of_read (s.advance.setMemory _) hr hread⟩
  rw [step_of_read s hr hw, hdec]
  exact execSstore_eq_next.mpr (.inr ⟨_, by rw [ha, hb]; exact hstore, rfl⟩)

/-- Settles O52: only the endings of the four instructions put another store into the state. -/
theorem onlyFourInstructionsChangeTheStore : Obligations.OnlyFourInstructionsChangeTheStore := by
  intro i s t h hi
  have hmem : t.memory = s.memory := by
    cases exec_effect h with
    | fault | hold | skip | register | halt | output | input => rfl
    | store _ _ _ _ he | map _ _ _ _ he | unmap _ _ he | loadProgram _ _ _ he =>
      subst he
      cases hi
  exact ⟨hmem, fun _ _ => by rw [hmem]⟩

/-! ## Reads of live, new and freed segments -/

/-- Settles O29: the handle's fault, the offset's fault, the word. -/
theorem memReadChecksHandleThenOffset : Obligations.MemReadChecksHandleThenOffset := by
  intro m h o
  refine ⟨fun hn => ?_, fun g hg ho => ?_, fun g hg ho => ?_⟩
  · exact Memory.read_error.mpr (.inl ⟨notLive_iff.mp hn, rfl⟩)
  · exact Memory.read_error.mpr (.inr ⟨g, hg, ho, rfl⟩)
  · exact Memory.read_ok.mpr ⟨g, hg, ho, rfl⟩

/-- Settles O32: the handle's slot holds the new zero-filled segment. -/
theorem newSegmentsReadZero : Obligations.NewSegmentsReadZero :=
  fun _ _ _ _ _ ha => Memory.read_allocate ha

/-- Settles O36: a freed handle is in the pool and so not live, until an allocation puts a new segment there. -/
theorem freedContentsAreGone : Obligations.FreedContentsAreGone := by
  intro cfg m m₁ h hf
  have hdead := Memory.liveSeg_of_inPool (Memory.inPool_free hf)
  have hread : ∀ o, m₁.read h o = .error .segBadHandle := fun _ => Memory.read_error.mpr (.inl ⟨hdead, rfl⟩)
  refine ⟨fun o v => ⟨hread o, Memory.write_error.mpr (hread o)⟩, ?_, fun n m₂ ha o ho => ?_⟩
  · exact Memory.free_error.mpr ⟨.inr hdead, rfl⟩
  · rw [Memory.read_allocate ha, if_pos ho]

end Sys2Proof.Machine

/-! PROOFS of the statements of 30_encoding.md. The thirteen opcodes of the standard format are treated as one: the
instruction that an opcode and three selectors give (`standardInstr`), what the decoder makes of its words, and the bits
of a word that its fields keep. -/

namespace Sys2Proof.Laws

/-! ## The standard format -/

/-- The instruction that an opcode of the standard format makes of the three selectors, none for load-value, whose
format is the other one (30_encoding.md R81 to R83). -/
def standardInstr (a b c : Reg) : Op → Option Instr
  | .cmov => some (.cmov a b c)
  | .sload => some (.sload a b c)
  | .sstore => some (.sstore a b c)
  | .add => some (.add a b c)
  | .mul => some (.mul a b c)
  | .div => some (.div a b c)
  | .nand => some (.nand a b c)
  | .halt => some .halt
  | .map => some (.map b c)
  | .unmap => some (.unmap c)
  | .out => some (.out c)
  | .inp => some (.inp c)
  | .loadp => some (.loadp b c)
  | .lv => none

section
variable {o : Op} {w v : Word} {i : Instr}

/-- A word of a standard opcode is decoded to the instruction of its three selectors. -/
theorem decode_of_standardInstr (ho : bits w 31 28 = o.code)
    (hi : standardInstr (selA w) (selB w) (selC w) o = some i) : decode w = i := by
  cases o with
  | lv => cases hi
  | cmov | sload | sstore | add | mul | div | nand | halt | map | unmap | out | inp | loadp =>
    cases hi
    simp only [decode, ofCode_of_bits ho]

/-- The decoder keeps the opcode (30_encoding.md R88, R89). -/
theorem opcodeOf_decode (w : Word) : opcodeOf (decode w) = bits w 31 28 := by
  rcases opcode_cases w with ⟨o, ho⟩ | h14 | h15
  · cases o with
    | lv => rw [decode_lv ho, ho]; rfl
    | cmov | sload | sstore | add | mul | div | nand | halt | map | unmap | out | inp | loadp =>
      rw [decode_of_standardInstr ho rfl, ho]; rfl
  · rw [decode_invalid14 h14, h14]; rfl
  · rw [decode_invalid15 h15, h15]; rfl

/-! ## Encoding with unused selectors 0 (30_encoding.md R90) -/

theorem encStd_zero (o : Op) (b c : Nat) :
    encStd o 0 b c = BitVec.ofNat 32 (o.code * 2 ^ 28 + b * 2 ^ 3 + c) := by
  rw [encStd, Nat.zero_mul, Nat.add_zero]

theorem encStd_zero_zero (o : Op) (c : Nat) : encStd o 0 0 c = BitVec.ofNat 32 (o.code * 2 ^ 28 + c) := by
  rw [encStd_zero, Nat.zero_mul, Nat.add_zero]

/-! ## Decoding an encoded instruction -/

theorem decode_encStd {a b c : Reg} (hi : standardInstr a b c o = some i) : decode (encStd o a b c) = i := by
  obtain ⟨ha, hb, hc⟩ := sel_encStd o a b c
  exact decode_of_standardInstr (OpcodeField.std o a b c) (by rw [ha, hb, hc, hi])

theorem decode_encLv (a : Reg) {imm : Nat} (hi : imm < immBound) : decode (encLv a imm) = .lv a imm := by
  have hop : bits (encLv a imm) 31 28 = Op.lv.code := OpcodeField.lv a imm (decide_eq_true hi)
  rw [decode_lv hop, selLv_encLv a hi, imm_encLv a hi]

theorem decode_encInvalid14 (p : BitVec 28) : decode (encInvalid 14 p) = .invalid14 p := by
  rw [decode_invalid14 (OpcodeField.invalid (by decide) p), payload_encInvalid (by decide)]

theorem decode_encInvalid15 (p : BitVec 28) : decode (encInvalid 15 p) = .invalid15 p := by
  rw [decode_invalid15 (OpcodeField.invalid (by decide) p), payload_encInvalid (by decide)]

/-! ## Encoding a decoded word -/

/-- The three selectors are the low nine bits of a word, the last two the low six, the last the low three (R81). -/
theorem sel_sum (w : Word) : (selA w).val * 64 + (selB w).val * 8 + (selC w).val = w.toNat % 2 ^ 9 := by
  simp only [selA, selB, selC, regSel]
  omega

theorem selBC_sum (w : Word) : (0 : Reg).val * 64 + (selB w).val * 8 + (selC w).val = w.toNat % 2 ^ 6 := by
  simp only [selB, selC, regSel]
  omega

theorem selC_sum (w : Word) : (0 : Reg).val * 64 + (0 : Reg).val * 8 + (selC w).val = w.toNat % 2 ^ 3 := by
  simp only [selC, regSel]
  omega

/-- A standard word whose selectors are the low `k` bits of `w` is `w` with its opcode and these bits kept. -/
theorem encStd_eq_and_mask {a b c : Reg} (k : Nat) {m : Word} (ho : bits w 31 28 = o.code) (hk : k ≤ 28)
    (hm : m = BitVec.ofNat 32 (15 * 2 ^ 28) ||| BitVec.ofNat 32 (2 ^ k - 1))
    (hlow : a.val * 64 + b.val * 8 + c.val = w.toNat % 2 ^ k) : encStd o a b c = w &&& m := by
  have hcode : w.toNat / 2 ^ 28 = o.code := by
    have := w.isLt
    simp only [bits] at ho
    omega
  apply BitVec.eq_of_toNat_eq
  rw [encStd_toNat o a.isLt b.isLt c.isLt, and_mask_toNat w hk hm, hcode, ← hlow]
  omega

theorem encLv_fields (ho : bits w 31 28 = Op.lv.code) : encLv (selLv w) (bits w 24 0) = w := by
  have himm : bits w 24 0 < immBound := Nat.mod_lt _ (by decide)
  have := w.isLt
  apply BitVec.eq_of_toNat_eq
  rw [encLv_toNat (selLv w).isLt himm]
  simp only [bits, Op.code, selLv, regSel] at *
  omega

theorem encInvalid_payload {n : Nat} (ho : bits w 31 28 = n) : encInvalid n (payload w) = w := by
  have := w.isLt
  have hn : n < 16 := ho ▸ Nat.mod_lt _ (by decide)
  apply BitVec.eq_of_toNat_eq
  rw [encInvalid_toNat hn, payload, BitVec.toNat_ofNat]
  simp only [bits] at *
  omega

/-! ## Words that agree on low bits -/

theorem selC_eq_of_bits (h : bits w 2 0 = bits v 2 0) : selC w = selC v := Fin.ext h

theorem selBC_eq_of_bits (h : bits w 5 0 = bits v 5 0) : selB w = selB v ∧ selC w = selC v := by
  simp only [bits] at h
  constructor <;> apply Fin.ext <;> simp only [selB, selC, regSel] <;> omega

theorem sel_eq_of_bits (h : bits w 8 0 = bits v 8 0) : selA w = selA v ∧ selB w = selB v ∧ selC w = selC v := by
  have hlow : bits w 5 0 = bits v 5 0 := by
    simp only [bits] at *
    omega
  refine ⟨Fin.ext ?_, selBC_eq_of_bits hlow⟩
  simp only [bits, selA, regSel] at *
  omega

theorem lvFields_eq_of_bits (h : bits w 27 0 = bits v 27 0) : selLv w = selLv v ∧ bits w 24 0 = bits v 24 0 := by
  simp only [bits] at *
  refine ⟨Fin.ext ?_, by omega⟩
  simp only [selLv, regSel]
  omega

theorem payload_eq_of_bits (h : bits w 27 0 = bits v 27 0) : payload w = payload v := by rw [payload, h, payload]

end

end Sys2Proof.Laws

namespace Sys2Proof.Machine

open Sys2Proof.Laws

/-! ## The encoding -/

/-- Settles O1: by format, the fields of an encoded word are the operands. -/
theorem encodeThenDecodeIsIdentity : Obligations.EncodeThenDecodeIsIdentity := by
  intro i hi
  cases i with
  | cmov a b c | sload a b c | sstore a b c | add a b c | mul a b c | div a b c | nand a b c =>
    exact decode_encStd (a := a) (b := b) (c := c) rfl
  | map b c | loadp b c => exact decode_encStd (a := 0) (b := b) (c := c) rfl
  | unmap c | out c | inp c => exact decode_encStd (a := 0) (b := 0) (c := c) rfl
  | halt => exact decode_encStd (a := 0) (b := 0) (c := 0) rfl
  | lv a imm => exact decode_encLv a (of_decide_eq_true hi)
  | invalid14 p => exact decode_encInvalid14 p
  | invalid15 p => exact decode_encInvalid15 p

/-- Settles O2: by the number of low bits that an opcode's selectors take. -/
theorem decodeThenEncodeClearsIgnoredBits : Obligations.DecodeThenEncodeClearsIgnoredBits := by
  intro w
  rcases opcode_cases w with ⟨o, ho⟩ | h14 | h15
  · cases o with
    | cmov | sload | sstore | add | mul | div | nand =>
      rw [decode_of_standardInstr ho rfl]
      exact ⟨rfl, encStd_eq_and_mask 9 ho (by decide) rfl (sel_sum w)⟩
    | map | loadp =>
      rw [decode_of_standardInstr ho rfl]
      exact ⟨rfl, encStd_eq_and_mask (a := 0) 6 ho (by decide) rfl (selBC_sum w)⟩
    | unmap | out | inp =>
      rw [decode_of_standardInstr ho rfl]
      exact ⟨rfl, encStd_eq_and_mask (a := 0) (b := 0) 3 ho (by decide) rfl (selC_sum w)⟩
    | halt =>
      rw [decode_of_standardInstr ho rfl]
      exact ⟨rfl, encStd_eq_and_mask (a := 0) (b := 0) (c := 0) 0 ho (by decide) rfl (Nat.mod_one _).symm⟩
    | lv =>
      rw [decode_lv ho]
      exact ⟨decide_eq_true (Nat.mod_lt _ (by decide)), (encLv_fields ho).trans BitVec.and_allOnes.symm⟩
  · rw [decode_invalid14 h14]
    exact ⟨rfl, (encInvalid_payload h14).trans BitVec.and_allOnes.symm⟩
  · rw [decode_invalid15 h15]
    exact ⟨rfl, (encInvalid_payload h15).trans BitVec.and_allOnes.symm⟩

/-- Settles O3: the fields that an opcode decodes lie in its used bits. -/
theorem ignoredBitsHaveNoEffect : Obligations.IgnoredBitsHaveNoEffect := by
  intro w v hop h9 h6 h3 h28
  suffices hd : decode w = decode v from ⟨hd, fun s => by rw [hd]⟩
  rcases opcode_cases w with ⟨o, ho⟩ | h14 | h15
  · have hv := hop.symm.trans ho
    cases o with
    | cmov | sload | sstore | add | mul | div | nand =>
      obtain ⟨ha, hb, hc⟩ := sel_eq_of_bits (h9 (by rw [ho]; decide))
      rw [decode_of_standardInstr ho rfl, decode_of_standardInstr hv rfl, ha, hb, hc]
    | map | loadp =>
      obtain ⟨hb, hc⟩ := selBC_eq_of_bits (h6 (by rw [ho]; decide))
      rw [decode_of_standardInstr ho rfl, decode_of_standardInstr hv rfl, hb, hc]
    | unmap | out | inp =>
      have hc := selC_eq_of_bits (h3 (by rw [ho]; decide))
      rw [decode_of_standardInstr ho rfl, decode_of_standardInstr hv rfl, hc]
    | halt => rw [decode_halt ho, decode_halt hv]
    | lv =>
      obtain ⟨ha, himm⟩ := lvFields_eq_of_bits (h28 (by rw [ho]; decide))
      rw [decode_lv ho, decode_lv hv, ha, himm]
  · rw [decode_invalid14 h14, decode_invalid14 (hop.symm.trans h14),
      payload_eq_of_bits (h28 (by rw [h14]; decide))]
  · rw [decode_invalid15 h15, decode_invalid15 (hop.symm.trans h15),
      payload_eq_of_bits (h28 (by rw [h15]; decide))]

/-- The decoder gives an invalid instruction exactly for the opcodes above the map (30_encoding.md R89). -/
theorem decode_invalid_iff (w : Word) :
    (∃ p, decode w = .invalid14 p ∨ decode w = .invalid15 p) ↔ 13 < bits w 31 28 := by
  constructor
  · rintro ⟨p, hd | hd⟩ <;> rw [← opcodeOf_decode, hd, opcodeOf] <;> decide
  · intro h
    rcases opcode_cases w with ⟨o, ho⟩ | h14 | h15
    · have := code_lt o
      omega
    · exact ⟨payload w, .inl (decode_invalid14 h14)⟩
    · exact ⟨payload w, .inr (decode_invalid15 h15)⟩

theorem raisesFault_invalid14 (p : BitVec 28) (s : State) : RaisesFault (.invalid14 p) s .invalidOpcode := rfl

theorem raisesFault_invalid15 (p : BitVec 28) (s : State) : RaisesFault (.invalid15 p) s .invalidOpcode := rfl

/-- Settles O4: the decoder's invalid words, and the fault that both invalid instructions take in every state. -/
theorem invalidOpcodesAreExactly14And15 : Obligations.InvalidOpcodesAreExactly14And15 := by
  refine ⟨decode_invalid_iff, fun p s => ⟨raisesFault_invalid14 p s, raisesFault_invalid15 p s⟩,
    fun s w hr hw hop => ?_⟩
  obtain rfl := instrWord_of_read hw
  rw [step_of_read s hr hw]
  rcases (decode_invalid_iff _).mpr hop with ⟨p, hd | hd⟩
  · rw [hd]
    exact raisesFault_invalid14 p s
  · rw [hd]
    exact raisesFault_invalid15 p s

/-- Settles O5: each formula is the encoder's own with the opcode's numeral, an unused selector adding 0. -/
theorem encodingFormulas : Obligations.EncodingFormulas := by
  exact ⟨fun a b c => ⟨rfl, rfl, rfl, rfl, rfl, rfl, rfl, encStd_zero_zero .halt 0, encStd_zero .map b c,
    encStd_zero_zero .unmap c, encStd_zero_zero .out c, encStd_zero_zero .inp c, encStd_zero .loadp b c⟩,
    fun _ _ _ => rfl, by decide, by decide⟩

/-! ## The pseudo-instructions -/

section
variable {s : State}

/-- Writing a register's own value changes nothing. -/
theorem setReg_getReg (s : State) (r : Reg) : s.setReg r (s.getReg r) = s := by
  simp [State.setReg, State.getReg]

/-- A register moved to itself only advances `pc`, whatever the condition. -/
theorem exec_cmov_self (a c : Reg) : exec (.cmov a a c) s = .next s.advance := by
  by_cases h : s.getReg c = 0#32
  · exact execCmov_eq_next.mpr (.inr ⟨h, rfl⟩)
  · exact execCmov_eq_next.mpr (.inl ⟨h, (setReg_getReg s.advance a).symm⟩)

/-- A register after an instruction of the binary family: the result in A, every other register as before. -/
theorem getReg_writeBinary (f : Word → Word → Word) (a b c q : Reg) :
    (writeBinary f a b c s).getReg q = if q = a then f (s.getReg b) (s.getReg c) else s.getReg q := by
  rw [writeBinary, getReg_setReg, advance_getReg]

theorem nand32_self (x : Word) : nand32 x x = ~~~x := by rw [nand32, BitVec.and_self]

/-- Load-program completes when the copy does and the target lies inside the segment 0 it leaves. -/
theorem exec_loadp_of_dupIntoZero {z c : Reg} {m : Memory} (hd : s.memory.dupIntoZero s.cfg (s.getReg z) = .ok m)
    (ht : (s.getReg c).toNat < m.progLen) :
    exec (.loadp z c) s = .next ((s.setMemory m).setPc (s.getReg c)) :=
  execLoadp_eq_next.mpr (.inr ⟨m, Memory.loadProgram_ok.mpr ⟨hd, ht⟩, rfl⟩)

end

/-- Settles O28: NOP moves a register to itself, NOT and AND are one and two NANDs, and JMP's word is a load-program
whose copy is none from handle 0 and whole from any other. -/
theorem pseudoInstructionsWork : Obligations.PseudoInstructionsWork := by
  refine ⟨by decide, fun s => ?nop, fun a b s => ?not, fun a b c s => ?and, fun z c s hz hc => ?jmp,
    fun z c s g hz hg hf hc => ?replace⟩
  case nop =>
    exact ⟨s.advance, exec_cmov_self 0 0, fun _ _ => rfl, add32_eq _ _, ⟨rfl, fun _ _ => rfl⟩, rfl, rfl, rfl, rfl⟩
  case not =>
    refine ⟨_, rfl, ?_⟩
    rw [getReg_writeBinary, if_pos rfl, nand32_self]
  case and =>
    refine ⟨_, _, rfl, rfl, ?_, fun r hr => ?_⟩
    · rw [getReg_writeBinary, if_pos rfl, nand32_self, getReg_writeBinary, if_pos rfl, nand32, BitVec.not_not]
    · have hne : r ≠ a := by simpa using hr
      rw [getReg_writeBinary, if_neg hne, getReg_writeBinary, if_neg hne]
  case jmp =>
    have hd : s.memory.dupIntoZero s.cfg (s.getReg z) = .ok s.memory := Memory.dupIntoZero_ok.mpr (.inl ⟨hz, rfl⟩)
    exact ⟨_, exec_loadp_of_dupIntoZero hd hc, rfl, rfl, fun _ _ => rfl⟩
  case replace =>
    have hd := Memory.dupIntoZero_ok.mpr (.inr ⟨hz, g, hg, exceedsCapacity_eq_false_iff.mpr hf, rfl⟩)
    have hlive := Memory.liveSeg_zero_dupIntoZero hg hd
    rw [← Memory.progLen_of_live hlive] at hc
    exact ⟨_, exec_loadp_of_dupIntoZero hd hc, rfl, hlive, Memory.read_zero_dupIntoZero hd⟩

end Sys2Proof.Machine

/-! PROOFS of the statements of 40_execution_cycle.md. Each is read off what one step answers (`step_of_read`,
`step_cases`, `step_eq_next`); a run that stays in one state is an induction on the number of steps, done once. -/

namespace Sys2Proof.Machine

/-! ## The fetch and the ends of a run -/

/-- Settles O7: the fetch finds the word at `(0, pc)`. -/
theorem stepRunsTheDecodedInstruction : Obligations.StepRunsTheDecodedInstruction :=
  fun s _ hr hw => step_of_read s hr hw

/-- A placed word is read at its offset, which segment 0 is long enough to hold (log entry 16). -/
theorem Memory.read_placeWord {m : Memory} (hm : m.wf) (o v : Word) : (m.placeWord o.toNat v).read 0#32 o = .ok v := by
  obtain ⟨g, hg⟩ := hm.zero_live
  have hword : (g.write o.toNat v).read o.toNat = v := by rw [Segment.read_write (hm.seg_wf hg), if_pos rfl]
  rw [Memory.placeWord, hg]
  refine Memory.read_ok.mpr ⟨_, Memory.liveSeg_putSlot (Nat.zero_le _) _ 0, ?_, hword.symm⟩
  exact Nat.lt_of_succ_le (Nat.le_max_right g.len _)

/-- Settles O8: the fetch reads the placed word back. -/
theorem placedWordIsTheOneRun : Obligations.PlacedWordIsTheOneRun :=
  fun s nbits w hm =>
    step_of_read (s.withFetchWord nbits w) rfl
      (Memory.read_placeWord hm s.placeOffset (BitVec.ofNat 32 (w % 2 ^ nbits)))

/-- Settles O9: the end-of-program test comes before the fetch. -/
theorem endOfProgramEndsTheRun : Obligations.EndOfProgramEndsTheRun :=
  fun s hr hb hp => ⟨s.endProgram, step_of_end s hr (Nat.pos_iff_ne_zero.mp hb) hp, rfl, rfl⟩

/-- Settles O10: a next state comes from RUNNING alone, and each terminal run state answers by its name. -/
theorem endedRunsTakeNoStep : Obligations.EndedRunsTakeNoStep := by
  refine fun s => ⟨fun ⟨_, h⟩ => (step_eq_next h).1, fun c hr => ?_, fun k p w hr => ?_⟩ <;> rw [step, hr]

/-- How an instruction leaves the run state: as it was, but for a halt and for a fault (40_execution_cycle.md R109). -/
theorem Effect.runState_cases {i : Instr} {s t : State} (h : Effect i s t) :
    t.runState = s.runState ∨ (t.runState = .halted .haltInstruction ∧ i = .halt) ∨
      ∃ k p w, t.runState = .faulted k p w := by
  cases h with
  | hold | skip | register | store | map | unmap | output | input | loadProgram => exact .inl rfl
  | halt hi => exact .inr (.inl ⟨rfl, hi⟩)
  | fault k => exact .inr (.inr ⟨k, s.pc, s.instrWord, rfl⟩)

/-- Settles O59: the end of the program, or an instruction that does not leave the run state as it was. -/
theorem runEndsOnlyInThreeWays : Obligations.RunEndsOnlyInThreeWays := by
  intro s t h hend
  obtain ⟨hr, ⟨-, hp, rfl⟩ | ⟨w, hw, he⟩⟩ := step_eq_next h
  · exact .inr (.inl ⟨rfl, hp⟩)
  · rcases (exec_effect he).runState_cases with hsame | ⟨hhalt, hi⟩ | hfault
    · exact absurd (hsame.trans hr) hend
    · exact .inl ⟨hhalt, w, hw, hi⟩
    · exact .inr (.inr hfault)

/-! ## Every step is answered -/

/-- A store operation's fault is a next state, and so is what follows its success when that always is one. -/
theorem exists_orFault_eq_next {α : Type} (s : State) (r : Except FaultKind α) {f : α → StepResult}
    (hf : ∀ v, ∃ t, f v = .next t) : ∃ t, s.orFault r f = .next t := by
  cases r with
  | error k => exact ⟨_, rfl⟩
  | ok v => exact hf v

/-- TOTALITY of `exec`: no instruction stops the model, whatever the data. -/
theorem exists_exec_eq_next (i : Instr) (s : State) : ∃ t, exec i s = .next t := by
  cases i with
  | cmov | add | mul | nand | halt | lv | invalid14 | invalid15 => exact ⟨_, rfl⟩
  | sload | sstore | map | unmap | loadp => exact exists_orFault_eq_next s _ fun _ => ⟨_, rfl⟩
  | div a b c =>
    by_cases h : s.getReg c = 0#32
    · exact ⟨_, execDiv_eq_next.mpr (.inl ⟨h, rfl⟩)⟩
    · exact ⟨_, execDiv_eq_next.mpr (.inr ⟨h, rfl⟩)⟩
  | out c =>
    rcases Nat.lt_or_ge 255 (s.getReg c).toNat with h | h
    · exact ⟨_, execOut_eq_next.mpr (.inl ⟨h, rfl⟩)⟩
    · exact ⟨_, execOut_eq_next.mpr (.inr ⟨h, rfl⟩)⟩
  | inp c =>
    cases h : s.input with
    | nil => exact ⟨_, execInp_eq_next.mpr (.inl ⟨h, rfl⟩)⟩
    | cons r rest => exact ⟨_, execInp_eq_next.mpr (.inr ⟨r, rest, h, rfl⟩)⟩

/-- Settles O11: of the five answers of a step, a running booted machine has the end of the program and an
instruction's, and both are next states. -/
theorem runningMachineAlwaysSteps : Obligations.RunningMachineAlwaysSteps := by
  refine ⟨exists_exec_eq_next, fun s hr hb => ?_⟩
  rcases step_cases s with ⟨c, hc, -⟩ | ⟨k, p, w, hf, -⟩ | ⟨-, h0, -⟩ | ⟨-, -, -, h⟩ | ⟨w, -, -, h⟩
  · cases hr.symm.trans hc
  · cases hr.symm.trans hf
  · exact absurd h0 (Nat.pos_iff_ne_zero.mp hb)
  · exact ⟨_, h⟩
  · rw [h]
    exact exists_exec_eq_next _ s

/-! ## Runs that stay in one state -/

/-- A state that steps to itself is where every number of steps from it ends. -/
theorem run_eq_of_step_eq {M : Host.Core} {s : M.State} (h : M.step s = .next s) (n : Nat) : M.run n s = .next s := by
  induction n with
  | zero => rfl
  | succ n ih => rw [Host.Core.run, h]; exact ih

/-- Settles O25: without an answer the waiting state steps to itself, and the answer added is the one consumed. -/
theorem inputHoldsUntilAnswered : Obligations.InputHoldsUntilAnswered := by
  intro s w c hr hw hd hin
  have hhold : step s = .next s := by
    rw [step_of_read s hr hw, hd]
    exact execInp_eq_next.mpr (.inl ⟨hin, rfl⟩)
  refine ⟨awaitingInput_iff.mpr ⟨hr, ⟨w, c, hw, hd⟩, hin⟩, run_eq_of_step_eq (M := Sys2Proof.core) hhold, fun r => ?_⟩
  have hanswer : (s.hostAnswers r).input = r :: [] := by rw [hostAnswers_input, hin, List.nil_append]
  refine ⟨((s.hostAnswers r).advance.setInput []).setReg c r.value, ?_, add32_eq s.pc 1#32,
    getReg_setReg_same _ c r.value, rfl⟩
  rw [step_of_read (s.hostAnswers r) hr hw, hd]
  exact execInp_eq_next.mpr (.inr ⟨r, [], hanswer, rfl⟩)

/-- Settles O57: handle 0 copies nothing, and the target, which is `pc` and inside segment 0, is where `pc` was. -/
theorem selfJumpRunsForever : Obligations.SelfJumpRunsForever := by
  intro s w b c hr hw hd hb hc
  have hcopy : s.memory.dupIntoZero s.cfg (s.getReg b) = .ok s.memory := Memory.dupIntoZero_ok.mpr (.inl ⟨hb, rfl⟩)
  have htarget : (s.getReg c).toNat < s.memory.progLen := hc ▸ lt_progLen_of_read hw
  have hself : step s = .next s :=
    calc step s = exec (.loadp b c) s := by rw [step_of_read s hr hw, hd]
      _ = .next ((s.setMemory s.memory).setPc (s.getReg c)) := exec_loadp_of_dupIntoZero hcopy htarget
      _ = .next s := by rw [hc]; rfl
  exact run_eq_of_step_eq (M := Sys2Proof.core) hself

end Sys2Proof.Machine

/-! PROOFS of the statements of 41_move_and_segment_access.md. The encoding of any standard opcode, the frame of an
instruction that writes one register and the frame of a store are lemmas of their own; each instruction's endings are
those of its inversion lemma (`execCmov_eq_next`, `execSload_eq_next`, `execSstore_eq_next`). -/

namespace Sys2Proof.Laws

open Sys2Proof.Machine

/-- Every word of a standard opcode is decoded to that opcode's instruction of the selectors in the word's three fields
(30_encoding.md R81, R85). -/
theorem decodesStd_of_standardInstr {o : Op} {f : Reg → Reg → Reg → Instr}
    (hf : ∀ a b c, standardInstr a b c o = some (f a b c)) : DecodesStd o.code f := by
  intro w a b c ho ha hb hc
  have hA : selA w = a := Fin.ext ha.symm
  have hB : selB w = b := Fin.ext hb.symm
  have hC : selC w = c := Fin.ext hc.symm
  rw [decode_of_standardInstr ho (hf _ _ _), hA, hB, hC]

end Sys2Proof.Laws

namespace Sys2Proof.Machine

open Sys2Proof.Laws

/-! ## Frames -/

/-- The advance alone touches no register, so it meets the frame for any one of them. -/
theorem onlyRegister_advance (r : Reg) (s : State) : OnlyRegister r s s.advance :=
  ⟨fun _ _ => rfl, add32_eq s.pc 1#32, ⟨rfl, fun _ _ => rfl⟩, rfl, rfl, rfl, rfl⟩

/-- A register write keeps the frame of the advance: it reaches its own register alone. -/
theorem onlyRegister_advance_setReg (r : Reg) (v : Word) (s : State) : OnlyRegister r s (s.advance.setReg r v) := by
  obtain ⟨hregs, hrest⟩ := onlyRegister_advance r s
  refine ⟨fun q hq => ?_, hrest⟩
  rw [getReg_setReg_ne _ _ (List.ne_of_not_mem_cons hq), hregs q hq]

/-- A write leaves every slot but its handle's as it was (20_memory.md R49). -/
theorem Memory.write_frame {m m' : Memory} {h o v : Word} {k : Nat} (hw : m.write h o v = .ok m')
    (hk : k ≠ h.toNat) : m'.liveSeg k = m.liveSeg k ∧ m'.inPool k = m.inPool k := by
  obtain ⟨g, hg, -, rfl⟩ := Memory.write_ok.mp hw
  exact Memory.putSlot_frame (Memory.lt_hwm_of_live hg).le _ hk

/-- A state whose store is the one a write leaves has every other slot and every address of another handle as before. -/
theorem sameStoreBut_of_write {s t : State} {h o v : Word} (hw : s.memory.write h o v = .ok t.memory) :
    SameStoreBut h.toNat s t :=
  ⟨fun _ hk => Memory.write_frame hw hk, fun _ p hk => Memory.read_write_of_ne hw (mt (congrArg BitVec.toNat) hk) p⟩

/-! ## The faults of the two segment accesses -/

section
variable {s : State} {k : FaultKind} {a b c : Reg}

theorem raisesFault_sload (he : s.memory.read (s.getReg b) (s.getReg c) = .error k) :
    RaisesFault (.sload a b c) s k :=
  execSload_eq_next.mpr (.inl ⟨k, he, rfl⟩)

theorem raisesFault_sstore (he : s.memory.write (s.getReg a) (s.getReg b) (s.getReg c) = .error k) :
    RaisesFault (.sstore a b c) s k :=
  execSstore_eq_next.mpr (.inl ⟨k, he, rfl⟩)

end

/-! ## The three instructions -/

/-- Settles O14: the read's word goes to the register, and the read's two faults are the instruction's. -/
theorem sloadReadsTheWord : Obligations.SloadReadsTheWord := by
  refine ⟨decodesStd_of_standardInstr (o := .sload) fun _ _ _ => rfl, fun a b c s => ?_⟩
  obtain ⟨hhandle, hoffset, hword⟩ := memReadChecksHandleThenOffset s.memory (s.getReg b) (s.getReg c)
  refine ⟨fun g hg ho => ?_, fun hn => raisesFault_sload (hhandle hn),
    fun g hg ho => raisesFault_sload (hoffset g hg ho)⟩
  exact ⟨_, execSload_eq_next.mpr (.inr ⟨_, hword g hg ho, rfl⟩), getReg_setReg_same _ a _,
    onlyRegister_advance_setReg a _ s⟩

/-- Settles O15: the write's store goes into the state, and the write's two faults are the instruction's. -/
theorem sstoreWritesTheWord : Obligations.SstoreWritesTheWord := by
  refine ⟨decodesStd_of_standardInstr (o := .sstore) fun _ _ _ => rfl, fun a b c s hs => ?_⟩
  obtain ⟨hhandle, hoffset, hword⟩ := memWriteReplacesOneWord s.memory (s.getReg a) (s.getReg b) (s.getReg c) hs
  refine ⟨fun g hg ho => ?_, fun hn => raisesFault_sstore (hhandle hn),
    fun g hg ho => raisesFault_sstore (hoffset g hg ho)⟩
  obtain ⟨m, hw, hhwm, hread, -⟩ := hword g hg ho
  refine ⟨s.advance.setMemory m, execSstore_eq_next.mpr (.inr ⟨m, hw, rfl⟩), ?written, fun h o hne => ?others,
    sameStoreBut_of_write hw, hhwm, fun _ _ => rfl, add32_eq s.pc 1#32, rfl, rfl, rfl, rfl⟩
  case written => exact (hread _ _).trans (if_pos ⟨rfl, rfl⟩)
  case others => exact (hread h o).trans (if_neg (mt Prod.ext_iff.mpr hne))

/-- Settles O13: by the condition, the register receives the source or only `pc` changes. -/
theorem cmovMovesWhenConditionHolds : Obligations.CmovMovesWhenConditionHolds := by
  refine ⟨decodesStd_of_standardInstr (o := .cmov) fun _ _ _ => rfl, fun a b c s => ?_⟩
  by_cases h : s.getReg c = 0#32
  · exact ⟨s.advance, execCmov_eq_next.mpr (.inr ⟨h, rfl⟩), (if_pos h).symm, onlyRegister_advance a s⟩
  · exact ⟨s.advance.setReg a (s.getReg b), execCmov_eq_next.mpr (.inl ⟨h, rfl⟩),
      (getReg_setReg_same _ a _).trans (if_neg h).symm, onlyRegister_advance_setReg a _ s⟩

end Sys2Proof.Machine

/-! PROOFS of the statements of 42_arithmetic_logic.md. The four instructions are one state, `writeBinary`, at four
operators: its effect and its frame are said once, and each operator's arithmetic is a lemma about words. -/

namespace Sys2Proof.Machine

open Sys2Proof.Laws

/-! ## The binary family and its operators -/

/-- An instruction of the binary family puts the operator's result, of the operands before the write, into A
(40_execution_cycle.md R107). -/
theorem getReg_writeBinary_dest (f : Word → Word → Word) (a b c : Reg) (s : State) :
    (writeBinary f a b c s).getReg a = f (s.getReg b) (s.getReg c) :=
  (getReg_writeBinary f a b c a).trans (if_pos rfl)

/-- Whatever the operator, A and `pc` are all that the binary family changes. -/
theorem onlyRegister_writeBinary (f : Word → Word → Word) (a b c : Reg) (s : State) :
    OnlyRegister a s (writeBinary f a b c s) :=
  onlyRegister_advance_setReg a _ s

/-- NAND works on each bit by itself (42_arithmetic_logic.md R133). -/
theorem nand32_getLsbD (x y : Word) {i : Nat} (hi : i < 32) :
    (nand32 x y).getLsbD i = !(x.getLsbD i && y.getLsbD i) := by
  simp [nand32, hi]

/-! ## The four instructions -/

/-- Settles O16: the binary family at `add32`. -/
theorem addWrapsModulo : Obligations.AddWrapsModulo := by
  refine ⟨decodesStd_of_standardInstr (o := .add) fun _ _ _ => rfl, fun a b c s => ?_⟩
  refine ⟨writeBinary add32 a b c s, rfl, ?_, onlyRegister_writeBinary add32 a b c s⟩
  rw [getReg_writeBinary_dest, add32_toNat]

/-- Settles O17: the binary family at `mul32`. -/
theorem mulKeepsTheLowHalf : Obligations.MulKeepsTheLowHalf := by
  refine ⟨decodesStd_of_standardInstr (o := .mul) fun _ _ _ => rfl, fun a b c s => ?_⟩
  refine ⟨writeBinary mul32 a b c s, rfl, ?_, onlyRegister_writeBinary mul32 a b c s⟩
  rw [getReg_writeBinary_dest, mul32_toNat]

/-- Settles O18: by the divisor, the binary family at `div32` or the fault. -/
theorem divIsUnsignedTruncating : Obligations.DivIsUnsignedTruncating := by
  refine ⟨decodesStd_of_standardInstr (o := .div) fun _ _ _ => rfl, fun a b c s =>
    ⟨fun hc => ?quotient, fun hc => ?zero⟩⟩
  case quotient =>
    refine ⟨writeBinary div32 a b c s, execDiv_eq_next.mpr (.inr ⟨hc, rfl⟩), ?_,
      onlyRegister_writeBinary div32 a b c s⟩
    rw [getReg_writeBinary_dest, div32_toNat]
  case zero => exact execDiv_eq_next.mpr (.inl ⟨hc, rfl⟩)

/-- Settles O19: the binary family at `nand32`. -/
theorem nandIsBitwise : Obligations.NandIsBitwise := by
  refine ⟨decodesStd_of_standardInstr (o := .nand) fun _ _ _ => rfl, fun a b c s => ?_⟩
  refine ⟨writeBinary nand32 a b c s, rfl, fun i hi => ?_, onlyRegister_writeBinary nand32 a b c s⟩
  rw [getReg_writeBinary_dest, nand32_getLsbD _ _ hi]

end Sys2Proof.Machine

/-! PROOFS of the statements of 43_halt_and_allocation.md. The store's part of MAP and UNMAP is what 20_memory.md says of
an allocation and of a free (`allocateFollowsItsRule`, `freeFollowsItsRule`, `freedContentsAreGone`); here stand the
instruction around it: its register, its frame and its faults. -/

namespace Sys2Proof.Machine

open Sys2Proof.Laws

/-! ## The frame and the faults -/

/-- A store that has every slot but `h`'s as it was reads as before through every other handle. -/
theorem sameStoreBut_of_sameSlot {h : Nat} {s t : State} (hslot : ∀ k, k ≠ h → SameSlot k s t) : SameStoreBut h s t :=
  ⟨hslot, fun k o hk => Memory.read_congr (hslot k.toNat hk).1 o⟩

section
variable {s : State} {k : FaultKind} {b c : Reg}

theorem raisesFault_map (he : s.memory.allocate s.cfg (s.getReg c) = .error k) : RaisesFault (.map b c) s k :=
  execMap_eq_next.mpr (.inl ⟨k, he, rfl⟩)

theorem raisesFault_unmap (he : s.memory.free (s.getReg c) = .error k) : RaisesFault (.unmap c) s k :=
  execUnmap_eq_next.mpr (.inl ⟨k, he, rfl⟩)

end

/-! ## The three instructions -/

/-- Settles O21: the allocation's handle goes to the register and its store into the state, and the allocation's three
faults are the instruction's. -/
theorem mapAllocatesASegment : Obligations.MapAllocatesASegment := by
  refine ⟨decodesStd_of_standardInstr (o := .map) fun _ _ _ => rfl, fun b c s => ?_⟩
  obtain ⟨-, hzero, hexhausted, hover, hok⟩ := allocateFollowsItsRule s.cfg s.memory (s.getReg c)
  refine ⟨fun hn ha hf => ?_, fun hn => raisesFault_map (hzero hn), fun hn ha => raisesFault_map (hexhausted hn ha),
    fun hn ha ho => raisesFault_map (hover hn ha ho)⟩
  obtain ⟨h, m, hal, hhandle, hhwm, -, hseg, -, hslots⟩ := hok hn ha hf
  refine ⟨h, (s.advance.setMemory m).setReg b (BitVec.ofNat 32 h), execMap_eq_next.mpr (.inr ⟨h, m, hal, rfl⟩),
    getReg_setReg_same _ b _, hhandle, hseg, hhwm, sameStoreBut_of_sameSlot hslots, fun q hq => ?_,
    add32_eq s.pc 1#32, rfl, rfl, rfl, rfl⟩
  exact getReg_setReg_ne _ _ (List.ne_of_not_mem_cons hq)

/-- Settles O22: the free's store goes into the state, and the free's fault is the instruction's. -/
theorem unmapReclaimsASegment : Obligations.UnmapReclaimsASegment := by
  refine ⟨decodesStd_of_standardInstr (o := .unmap) fun _ _ _ => rfl, fun c s => ?_⟩
  obtain ⟨hzero, hrange, hpool, hok⟩ := freeFollowsItsRule s.memory (s.getReg c)
  refine ⟨fun h0 ⟨g, hg⟩ => ?_, fun h0 => raisesFault_unmap (hzero h0),
    fun hn => raisesFault_unmap (hn.elim hrange hpool)⟩
  obtain ⟨m, hf, hhwm, hin, -, hslots⟩ := hok g h0 hg
  obtain ⟨hgone, -⟩ := freedContentsAreGone s.cfg s.memory m (s.getReg c) hf
  exact ⟨s.advance.setMemory m, execUnmap_eq_next.mpr (.inr ⟨m, hf, rfl⟩), hin, Memory.liveSeg_of_inPool hin, hhwm,
    fun o => (hgone o 0#32).1, sameStoreBut_of_sameSlot hslots, fun _ _ => rfl, add32_eq s.pc 1#32,
    rfl, rfl, rfl, rfl⟩

/-- Settles O20: a halt is the advance with the run state replaced. -/
theorem haltEndsTheRun : Obligations.HaltEndsTheRun := by
  refine ⟨decodesStd_of_standardInstr (o := .halt) fun _ _ _ => rfl, fun s => ?_⟩
  exact ⟨s.advance.setRunState (.halted .haltInstruction), rfl, rfl, rfl, add32_eq s.pc 1#32, fun _ _ => rfl,
    ⟨rfl, fun _ _ => rfl⟩, rfl, rfl, rfl⟩

end Sys2Proof.Machine

/-! PROOFS of the statements of 44_io.md. The endings of OUT and IN are those of their inversion lemmas
(`execOut_eq_next`, `execInp_eq_next`); what passes between a byte and a register is a fact about
words. -/

namespace Sys2Proof.Machine

open Sys2Proof.Laws

/-- A value of at most 255 is delivered whole: narrowing it to a byte loses nothing (44_io.md R150). -/
theorem toNat_setWidth_byte {v : Word} (hv : v.toNat ≤ 255) : (v.setWidth 8).toNat = v.toNat := by
  rw [BitVec.toNat_setWidth]
  exact Nat.mod_eq_of_lt (by omega)

/-! ## The two instructions -/

/-- Settles O23: by the range test, the advance with one byte delivered or the fault. -/
theorem outDeliversOneByte : Obligations.OutDeliversOneByte := by
  refine ⟨decodesStd_of_standardInstr (o := .out) fun _ _ _ => rfl, fun c s => ⟨fun hv => ?byte, fun hv => ?range⟩⟩
  case byte =>
    exact ⟨s.advance.deliver ((s.getReg c).setWidth 8), (s.getReg c).setWidth 8,
      execOut_eq_next.mpr (.inr ⟨hv, rfl⟩), toNat_setWidth_byte hv, rfl, fun _ _ => rfl, add32_eq s.pc 1#32,
      ⟨rfl, fun _ _ => rfl⟩, rfl, rfl, rfl⟩
  case range => exact execOut_eq_next.mpr (.inl ⟨hv, rfl⟩)

/-- Settles O24: the answer leaves the host's list, and its value goes to the register. -/
theorem inTakesTheHostsAnswer : Obligations.InTakesTheHostsAnswer := by
  refine ⟨decodesStd_of_standardInstr (o := .inp) fun _ _ _ => rfl, fun c s r rest hin => ?_⟩
  have hvalue : ((s.advance.setInput rest).setReg c r.value).getReg c = r.value := getReg_setReg_same _ c r.value
  refine ⟨(s.advance.setInput rest).setReg c r.value, execInp_eq_next.mpr (.inr ⟨r, rest, hin, rfl⟩), ?byte, ?atEnd,
    rfl, fun q hq => ?others, add32_eq s.pc 1#32, ⟨rfl, fun _ _ => rfl⟩, rfl, rfl, rfl⟩
  case byte =>
    rintro v rfl
    rw [hvalue, value_byte_toNat]
  case atEnd =>
    rintro rfl
    exact hvalue
  case others => exact getReg_setReg_ne _ _ (List.ne_of_not_mem_cons hq)

end Sys2Proof.Machine

/-! PROOFS of the statements of 45_load_program_and_value.md. The store's part of LOADP is what 20_memory.md says of a copy
into segment 0 (`dupIntoZeroFollowsItsRule`); here stand the target's test after it, the faults in their order, and the
immediate of LV with its format. -/

namespace Sys2Proof.Machine

open Sys2Proof.Laws

/-! ## The faults of load-program -/

section
variable {s : State} {b c : Reg}

/-- The copy's fault is the instruction's, whatever the target (45_load_program_and_value.md R160). -/
theorem raisesFault_loadp_of_copy {k : FaultKind} (hd : s.memory.dupIntoZero s.cfg (s.getReg b) = .error k) :
    RaisesFault (.loadp b c) s k :=
  execLoadp_eq_next.mpr (.inl ⟨k, Memory.loadProgram_error.mpr (.inl hd), rfl⟩)

/-- The target is tested against the segment 0 that the copy leaves. -/
theorem raisesFault_loadp_of_target {m : Memory} (hd : s.memory.dupIntoZero s.cfg (s.getReg b) = .ok m)
    (ht : m.progLen ≤ (s.getReg c).toNat) : RaisesFault (.loadp b c) s .loadpBadTarget :=
  execLoadp_eq_next.mpr (.inl ⟨.loadpBadTarget, Memory.loadProgram_error.mpr (.inr ⟨m, hd, ht, rfl⟩), rfl⟩)

end

/-! ## The immediate format -/

/-- Every word of the load-value opcode is decoded to LV of the word's selector and immediate (30_encoding.md R82). -/
theorem decodesLv_lv : DecodesLv Op.lv.code .lv := by
  intro w a imm ho ha hi
  have hA : selLv w = a := Fin.ext ha.symm
  rw [decode_lv ho, hA, hi]

/-- An immediate within its 25 bits is the value of the word it is widened to. -/
theorem zextImm_toNat_of_lt {imm : Nat} (hi : imm < immBound) : (zextImm imm).toNat = imm := by
  rw [zextImm_toNat, Nat.mod_eq_of_lt hi]

/-- Widening fills bits 31:25 with 0 (30_encoding.md R85). -/
theorem zextImm_getLsbD_of_le (imm : Nat) {i : Nat} (hi : 25 ≤ i) : (zextImm imm).getLsbD i = false := by
  rw [zextImm, BitVec.getLsbD_setWidth, BitVec.getLsbD_of_ge _ i hi, Bool.and_false]

/-! ## The two instructions -/

/-- Settles O26: the copy's no-op, faults and store are those of its rule, and after it the target's test picks the jump
or the fault. -/
theorem loadpCopiesThenJumps : Obligations.LoadpCopiesThenJumps := by
  refine ⟨decodesStd_of_standardInstr (o := .loadp) fun _ _ _ => rfl, fun b c s => ?_⟩
  obtain ⟨hzero, hhandle, hlive⟩ := dupIntoZeroFollowsItsRule s.cfg s.memory (s.getReg b)
  refine ⟨fun h0 ht => ?jump, fun h0 ht => raisesFault_loadp_of_target (hzero h0) ht,
    fun h0 hn => raisesFault_loadp_of_copy (hhandle h0 hn), fun g h0 hg => ?other⟩
  case jump =>
    exact ⟨_, exec_loadp_of_dupIntoZero (hzero h0) ht, rfl, ⟨rfl, fun _ _ => rfl⟩, fun _ _ => rfl, rfl, rfl, rfl, rfl⟩
  case other =>
    obtain ⟨hover, hfits⟩ := hlive g h0 hg
    refine ⟨fun ho => raisesFault_loadp_of_copy (hover ho), fun hf => ?_⟩
    obtain ⟨m, hd, hhwm, hlen, hread, -, hslots⟩ := hfits hf
    refine ⟨fun ht => raisesFault_loadp_of_target hd (hlen.trans_le ht), fun ht => ?_⟩
    exact ⟨(s.setMemory m).setPc (s.getReg c), exec_loadp_of_dupIntoZero hd (ht.trans_eq hlen.symm), rfl,
      Memory.liveSeg_zero_dupIntoZero hg hd, hlen, hread, hhwm, sameStoreBut_of_sameSlot hslots, fun _ _ => rfl,
      rfl, rfl, rfl, rfl⟩

/-- Settles O27: the register receives the widened immediate, which 25 bits hold. -/
theorem lvLoadsTheImmediate : Obligations.LvLoadsTheImmediate := by
  refine ⟨decodesLv_lv, fun a imm s hi => ?_⟩
  have hreg : (s.advance.setReg a (zextImm imm)).getReg a = zextImm imm := getReg_setReg_same _ a _
  refine ⟨s.advance.setReg a (zextImm imm), rfl, ?value, fun i hbit => ?high, onlyRegister_advance_setReg a _ s⟩
  case value => rw [hreg, zextImm_toNat_of_lt (Nat.lt_succ_of_le hi)]
  case high => rw [hreg, zextImm_getLsbD_of_le imm hbit]

end Sys2Proof.Machine

/-! PROOFS of the statements of 60_exceptions.md. Both are read off one inversion lemma: a step that ends in FAULTED took
the fault of the word at `(0, pc)` (`step_faulted`). -/

namespace Sys2Proof.Machine

section
variable {s t : State} {k : FaultKind} {p w : Word}

/-- INVERSION of a step into FAULTED: of a step's endings only a fault taken leaves that run state, and it records `pc`
and the word that the step ran (60_exceptions.md R175). -/
theorem step_faulted (h : step s = .next t) (ht : t.runState = .faulted k p w) :
    s.memory.read 0#32 s.pc = .ok w ∧ raisedBy k (decode w) = true ∧ p = s.pc ∧ t = s.faultedBy k w := by
  obtain ⟨hr, ⟨-, -, rfl⟩ | ⟨v, hv, he⟩⟩ := step_eq_next h
  case inl => cases ht
  case inr =>
    obtain ⟨hk, rfl⟩ := (exec_effect he).eq_takeFault hr ht
    obtain rfl : s.instrWord = v := instrWord_of_read hv
    cases ht
    exact ⟨hv, hk, rfl, rfl⟩

end

/-- Settles O49: the fault's own state is the state before it with the run state replaced, and FAULTED has no step and
the exit status `EXIT_FAULT`. -/
theorem faultsArePreciseAndTerminal : Obligations.FaultsArePreciseAndTerminal := by
  intro s t k p w h ht
  obtain ⟨hread, -, hp, hstate⟩ := step_faulted h ht
  obtain ⟨-, -, hstuck⟩ := endedRunsTakeNoStep t
  obtain ⟨-, -, hstatus, hne⟩ := exitStatusFollowsTheRunState t
  exact ⟨hstate, hp, hread, hstuck k p w ht, hstatus k p w ht, hne⟩

/-- Settles O50: the fault is of the decoded word, whose instruction raises it; the codes are the table's. -/
theorem faultKindsComeFromTheirInstructions : Obligations.FaultKindsComeFromTheirInstructions := by
  refine ⟨fun s t k p w h ht => ?kind, rfl⟩
  obtain ⟨-, hraised, -, -⟩ := step_faulted h ht
  exact hraised

end Sys2Proof.Machine

/-! PROOFS of the statements of 70_reset_and_hazards.md. What a boot leaves is said once, for every image
(`hasResetValues_resetWith`); the reset state is the case of the image that has no word. The words of an image file are
read off the recursion of `imageOfBytes`, one group of four bytes at a time. -/

namespace Sys2Proof.Machine

/-! ## The boot port -/

/-- Settles O45: the boot port takes the image, and the state it leaves has R200's values. -/
theorem bootLeavesTheResetState : Obligations.BootLeavesTheResetState :=
  fun cfg image hne hlen => ⟨_, State.boot_eq_next.mpr ⟨hne, hlen, rfl⟩, hasResetValues_resetWith cfg image⟩

/-- A running machine whose segment 0 has no word has nothing to fetch, and refuses (70_reset_and_hazards.md R204). -/
theorem step_of_noProgram {s : State} (hr : s.runState = .running) (h0 : s.memory.progLen = 0) :
    step s = .refused .noProgram := by
  rw [step, hr, fetch_eq_noProgram.mpr h0]

/-- Settles O12: the boot port tests for an empty image first, and the reset state is a running machine without a
program. -/
theorem emptyImageIsRefused : Obligations.EmptyImageIsRefused :=
  ⟨fun _ => rfl, fun _ => step_of_noProgram, step_of_noProgram rfl rfl⟩

/-! ## The reset state -/

/-- The reset state holds what a boot of no words would leave, had the boot port taken it (log entry 10). -/
theorem hasResetValues_reset : HasResetValues Config.default [] State.reset :=
  hasResetValues_resetWith Config.default []

/-- Under the spec's defaults every register is reset to 0 (10_state.md R22). -/
theorem regReset_default (r : Reg) : Config.default.regReset[r] = 0#32 :=
  Vector.getElem_replicate r.isLt

/-- Settles O46: R200's values under the spec's defaults. -/
theorem resetValues : Obligations.ResetValues := by
  obtain ⟨hregs, hpc, hrun, hhwm, -, -, hpool, hout, -, -⟩ := hasResetValues_reset
  exact ⟨fun r => (hregs r).trans (regReset_default r), hpc, hrun, hhwm, hpool, hout⟩

/-- Settles O43: the store is one empty segment, and `pc` stands at its end. -/
theorem resetMeetsTheInvariant : Obligations.ResetMeetsTheInvariant := by
  have hmem : State.reset.memory.wf := Memory.wf_single (Segment.wf_zeros (Nat.zero_le _))
  have hcfg : State.reset.cfg.wf := by decide
  exact ⟨hmem, hcfg, hcfg.1, Nat.le_refl 0⟩

/-! ## The words of an image file -/

/-- The word of four file bytes, the first the most significant (70_reset_and_hazards.md R203). -/
def bigEndianWord (b0 b1 b2 b3 : Byte) : Word :=
  BitVec.ofNat 32 (b0.toNat * 2 ^ 24 + b1.toNat * 2 ^ 16 + b2.toNat * 2 ^ 8 + b3.toNat)

/-- Four bytes fill a word exactly, so none of their bits is lost. -/
theorem bigEndianWord_toNat (b0 b1 b2 b3 : Byte) : (bigEndianWord b0 b1 b2 b3).toNat =
    b0.toNat * 2 ^ 24 + b1.toNat * 2 ^ 16 + b2.toNat * 2 ^ 8 + b3.toNat := by
  rw [bigEndianWord, BitVec.toNat_ofNat]
  omega

theorem imageOfBytes_group (b0 b1 b2 b3 : Byte) (rest : List Byte) :
    imageOfBytes (b0 :: b1 :: b2 :: b3 :: rest) = (imageOfBytes rest).map (bigEndianWord b0 b1 b2 b3 :: ·) := rfl

/-- Words are made exactly of whole groups of four bytes (log entry 22). -/
theorem isSome_imageOfBytes (bytes : List Byte) : (imageOfBytes bytes).isSome = true ↔ bytes.length % 4 = 0 := by
  induction bytes using imageOfBytes.induct with
  | case1 => simp [imageOfBytes]
  | case2 b0 b1 b2 b3 rest ih =>
    rw [imageOfBytes_group, Option.isSome_map, ih]
    simp only [List.length_cons]
    omega
  | case3 | case4 | case5 => simp [imageOfBytes]

/-- One word for each group of four bytes. -/
theorem length_imageOfBytes {bytes : List Byte} {ws : List Word} (h : imageOfBytes bytes = some ws) :
    ws.length * 4 = bytes.length := by
  induction bytes using imageOfBytes.induct generalizing ws with
  | case1 => cases h; rfl
  | case2 b0 b1 b2 b3 rest ih =>
    obtain ⟨vs, hvs, rfl⟩ := Option.map_eq_some_iff.mp h
    have hrest := ih hvs
    simp only [List.length_cons]
    omega
  | case3 | case4 | case5 => cases h

/-- Word `i` is group `i` of the bytes; past the end both sides read 0. -/
theorem getD_imageOfBytes {bytes : List Byte} {ws : List Word} (h : imageOfBytes bytes = some ws) (i : Nat) :
    ws.getD i 0#32 = bigEndianWord (bytes.getD (4 * i) 0#8) (bytes.getD (4 * i + 1) 0#8)
      (bytes.getD (4 * i + 2) 0#8) (bytes.getD (4 * i + 3) 0#8) := by
  induction bytes using imageOfBytes.induct generalizing ws i with
  | case1 => cases h; simp [bigEndianWord]
  | case2 b0 b1 b2 b3 rest ih =>
    obtain ⟨vs, hvs, rfl⟩ := Option.map_eq_some_iff.mp h
    cases i with
    | zero => rfl
    | succ i =>
      rw [List.getD_cons_succ, ih hvs i]
      rfl
  | case3 | case4 | case5 => cases h

/-- Settles O48: the groups are whole, one for each word, and a word's value is its group's. -/
theorem imageBytesAreBigEndian : Obligations.ImageBytesAreBigEndian := by
  refine fun bytes => ⟨isSome_imageOfBytes bytes, fun ws h => ⟨length_imageOfBytes h, fun i _ => ?_⟩⟩
  rw [getD_imageOfBytes h i, bigEndianWord_toNat]

end Sys2Proof.Machine

/-! PROOF of the statement about the spec's test vectors (95_test_vectors.md): each word goes through the decoder's rule
for its opcode, which reads the fields of that opcode's format and no ignored bit (30_encoding.md R87). -/

namespace Sys2Proof.Machine

open Sys2Proof.Laws

/-! ## Words written out by hand -/

/-- Settles O6: by the decoder's rule for each word's opcode, whose fields are the named operands; left over is the
opcode field of each word. -/
theorem handWrittenWordsDecode : Obligations.HandWrittenWordsDecode := by
  refine ⟨decode_cmov ?_, decode_sstore ?_, decode_add ?_, decode_halt ?_, decode_map ?_, decode_out ?_,
    decode_loadp ?_, decode_lv ?_, decode_invalid14 ?_, decode_invalid15 ?_⟩ <;> decide

end Sys2Proof.Machine
